-- ==== Sys2Proof/Word.lean ====
section
/-! DEFINITION. The word types of ABRX and the value types of 00_scope.md rule R17. -/

namespace Sys2Proof

/-- A byte, 0 to 255 (R14). -/
abbrev Byte := BitVec 8

/-- `Bit = {0, 1}` (R17): `false` is 0 and `true` is 1. -/
abbrev Bit := Bool

/-- `FsmState` (R17): the two states of the alternating-bit machine (R29). -/
inductive FsmState where
  | waitForZero
  | waitForOne
deriving DecidableEq, Repr

/-- `Event` (R17): the classification of one inbound datagram (R85). Code 11 has no constructor (R165). -/
inductive Event where
  | allFine
  | isCorrupt
  | wrongAlternating
deriving DecidableEq, Repr

/-- `Action` (R17): the FSM's answer (R86, R158). -/
inductive Action where
  | deliver
  | ignore
  | resend
deriving DecidableEq, Repr

/-- `Err` (R17, R210): the errors the block itself raises; `noError` is the spec's NONE. -/
inductive Err where
  | noError
  | malformed
  | checksumMismatch
  | sequenceMismatch
deriving DecidableEq, Repr

/-- `MCause` (R17, R211): why a datagram is MALFORMED. -/
inductive MCause where
  | short
  | length
  | seqRange
deriving DecidableEq, Repr

end Sys2Proof
end

