-- ==== Sys2Proof/Config.lean ====
section
/-! DEFINITION. What an implementation of ABRX fixes, and the values the spec leaves free. -/

namespace Sys2Proof

/-- `ACK_SRC_PORT` as it stands at the reset that State.reset is the result of: OPEN in the spec (R8, D3), so a constant
with no value any proof can see (log 2). -/
opaque Config.ackSrcPort : BitVec 16

/-- `ACK_DST_PORT`, likewise (R8, D3; log 2). -/
opaque Config.ackDstPort : BitVec 16

/-- FREE VALUE: what the byte cell of wire offset `offset` (0 to 7 HDR, 8 to 11 CSUM, 12 and up PBUF, R51) holds after the
reset number `epoch` and before a byte of a datagram is stored in it. The spec calls it unspecified (R40, R186, U3); nothing
constrains it here (logs 4 and 5). -/
opaque Config.unspecifiedByte (epoch offset : Nat) : Byte

/-- The configuration of the datagram-level functions: the checksum as a parameter (R9, U11), so that what is claimed of
framing, FSM and acknowledgments can be claimed for every checksum function (log 29). -/
structure Config.Cfg where
  /-- `cfg.crc : bytes -> u32` (R9). -/
  crc : List Byte → BitVec 32

/-- `HDR_LEN` (R6). -/
def Config.hdrLen : Nat := 8
/-- `MIN_FRAME = HDR_LEN + CSUM_LEN` (R6). -/
def Config.minFrame : Nat := 12
/-- `MAX_PAYLOAD` (R6): also the number of cells of PBUF (R35). -/
def Config.maxPayload : Nat := 65535
/-- `MAX_FRAME = MIN_FRAME + MAX_PAYLOAD` (R7): the longest well-formed data datagram. -/
def Config.maxFrame : Nat := 65547
/-- `RXCNT_SAT = MAX_FRAME + 1` (R7): where the receive byte counter saturates. -/
def Config.rxcntSat : Nat := 65548

end Sys2Proof
end

