-- ==== Sys2Proof/Syntax.lean ====
section
/-! DEFINITION. The instructions: one constructor per row of spec/opcode_table.json (R94). -/

namespace Sys2Proof

/-- One encoded operation of ABRX. Bits a row's decoding ignores are kept as fields, so that no bit of an encoding is lost
(log 21). -/
inductive Instr where
  /-- RST (R186), with the ignored `cmd` and `data` bits of its command word (R81). -/
  | rst (cmd : BitVec 2) (data : Byte)
  /-- NOP (R187), with its ignored `data`. -/
  | nop (data : Byte)
  /-- RXB b (R188): receive one byte of the datagram in progress. -/
  | rxb (b : Byte)
  /-- RXE (R189): end of datagram, with its ignored `data`. -/
  | rxe (data : Byte)
  /-- CMD_RSVD (R193), with its ignored `data`. -/
  | cmdRsvd (data : Byte)
  /-- DATA0 (R191): an inbound datagram whose sequence byte is 0x00 (R71, R74). -/
  | data0 (src dst : BitVec 16) (flag : Byte) (len : BitVec 16) (csum : BitVec 32) (payload : List Byte)
  /-- DATA1 (R192): an inbound datagram whose sequence byte is 0x01 (R71, R74). -/
  | data1 (src dst : BitVec 16) (flag : Byte) (len : BitVec 16) (csum : BitVec 32) (payload : List Byte)
  /-- ACK0 (R171): the outbound acknowledgment of bit 0 (R76, R77). -/
  | ack0 (src dst : BitVec 16) (csum : BitVec 32)
  /-- ACK1 (R172): the outbound acknowledgment of bit 1 (R76, R77). -/
  | ack1 (src dst : BitVec 16) (csum : BitVec 32)
  /-- FSM-IN word 000 (R152). -/
  | fsmZAllFine
  /-- FSM-IN word 100 (R153). -/
  | fsmOAllFine
  /-- FSM-IN word 001 (R154). -/
  | fsmZIsCorrupt
  /-- FSM-IN word 101 (R155). -/
  | fsmOIsCorrupt
  /-- FSM-IN word 010 (R156). -/
  | fsmZWrongAlt
  /-- FSM-IN word 110 (R157). -/
  | fsmOWrongAlt
deriving DecidableEq, Repr

end Sys2Proof
end

