-- ==== Sys2Proof/WellFormed.lean ====
section
/-! DEFINITION. Which terms of Instr are encodings of the spec. -/

namespace Sys2Proof

/-- The one relation between fields that the formats ask for: a data datagram holds as many payload bytes as its `len`
field declares (R71, R73). Every other field takes every value of its width. -/
abbrev WellFormed (i : Instr) : Prop :=
  match i with
  | .data0 _ _ _ len _ payload => payload.length = len.toNat
  | .data1 _ _ _ len _ payload => payload.length = len.toNat
  | .rst _ _ => True
  | .nop _ => True
  | .rxb _ => True
  | .rxe _ => True
  | .cmdRsvd _ => True
  | .ack0 _ _ _ => True
  | .ack1 _ _ _ => True
  | .fsmZAllFine => True
  | .fsmOAllFine => True
  | .fsmZIsCorrupt => True
  | .fsmOIsCorrupt => True
  | .fsmZWrongAlt => True
  | .fsmOWrongAlt => True

end Sys2Proof
end

