-- ==== Sys2Proof/Decode.lean ====
section
/-! DEFINITION. Byte order, the structural decoding of a datagram, the decoder of all four formats and, after it, the
encoder and the opcode table's rows. -/

namespace Sys2Proof

/-! ## Byte order (00_scope.md R15, 20_memory.md R57, R58) -/

/-- `be16(b0, b1) = 256*b0 + b1` (R15). -/
def be16 (b0 b1 : Byte) : BitVec 16 := b0 ++ b1

/-- `be32(b0, b1, b2, b3)`, most significant byte first (R15). -/
def be32 (b0 b1 b2 b3 : Byte) : BitVec 32 := b0 ++ b1 ++ b2 ++ b3

/-- `bytes_be16`, the inverse of `be16` (R15). -/
def bytesBe16 (v : BitVec 16) : List Byte := [v.extractLsb' 8 8, v.extractLsb' 0 8]

/-- `bytes_be32(v) = [v[31:24], v[23:16], v[15:8], v[7:0]]` (R15). -/
def bytesBe32 (v : BitVec 32) : List Byte :=
  [v.extractLsb' 24 8, v.extractLsb' 16 8, v.extractLsb' 8 8, v.extractLsb' 0 8]

/-- The `n` bytes of a word whose byte 0 is its most significant one: how `W` (R71) and `A` (R76) name their bytes. -/
def wordBytes (n : Nat) (w : BitVec (8 * n)) : List Byte :=
  (List.range n).map fun i => w.extractLsb' (8 * (n - 1 - i)) 8

/-- A sequence bit as the byte 0x00 or 0x01 (R52, R170). -/
def bitByte (b : Bit) : Byte := if b then 1 else 0

/-! ## Structural decoding (41_parser.md R123 to R128) -/

/-- What `decode` returns for a structurally well-formed datagram (R123). -/
structure Fields where
  header  : List Byte
  src     : BitVec 16
  dst     : BitVec 16
  seq     : Bit
  flag    : Byte
  len     : BitVec 16
  claimed : BitVec 32
  payload : List Byte
deriving DecidableEq, Repr

/-- `RXVIEW`'s value (R121): the bytes of the datagram presented, or more of them than any well-formed datagram has. -/
inductive RxView where
  | bytes (d : List Byte)
  | overlong
deriving DecidableEq, Repr

/-- `extract_sequence_bit(header) -> 0|1`: byte 4 as a bit (R126). Its callers pass a header whose byte 4 is 0 or 1. -/
def extractSequenceBit (header : List Byte) : Bit := (header.getD 4 0).getLsbD 0

/-- `extract_payload_length(header) -> uint`: bytes 6 and 7, big-endian (R127). -/
def extractPayloadLength (header : List Byte) : BitVec 16 := be16 (header.getD 6 0) (header.getD 7 0)

/-- `decode` on a byte string (R124): the tests SHORT, LENGTH, SEQ_RANGE in this order, the first that fires deciding the
cause. It computes and compares no checksum. -/
def decodeFields (d : List Byte) : Except MCause Fields :=
  match d with
  | d0 :: d1 :: d2 :: d3 :: d4 :: d5 :: d6 :: d7 :: d8 :: d9 :: d10 :: d11 :: payload =>
    let header := [d0, d1, d2, d3, d4, d5, d6, d7]
    if d.length ≠ 12 + (extractPayloadLength header).toNat then .error .length
    else if 1 < d4.toNat then .error .seqRange
    else .ok { header := header, src := be16 d0 d1, dst := be16 d2 d3, seq := extractSequenceBit header, flag := d5,
               len := extractPayloadLength header, claimed := be32 d8 d9 d10 d11, payload := payload }
  | _ => .error .short

/-- `decode` on what the block has received: an overlong datagram is LENGTH (R125). -/
def decodeView (rx : RxView) : Except MCause Fields :=
  match rx with
  | .bytes d => decodeFields d
  | .overlong => .error .length

/-! ## Decoding the four formats (30_encoding.md R70) -/

/-- One encoded thing: the four things that have an encoding (R70). -/
inductive Enc where
  /-- P-CMD: the 11-bit command word `{ rst, cmd[1:0], data[7:0] }` (R80). -/
  | cmd (c : BitVec 11)
  /-- W-DATA: an inbound datagram, bytes in wire order (R71). -/
  | data (d : List Byte)
  /-- W-ACK: the 72-bit word `A`, byte 0 in `A[71:64]` (R76). -/
  | ack (a : BitVec 72)
  /-- FSM-IN: the 3-bit word `{ state, event[1:0] }` (R89). -/
  | fsm (f : BitVec 3)
deriving DecidableEq, Repr

/-- Why a thing is no encoding of an instruction. -/
inductive DecodeError where
  /-- An inbound byte string that is not a structurally well-formed datagram (R78, R124). -/
  | malformed (c : MCause)
  /-- An outbound word whose sequence byte is neither 0x00 nor 0x01 (R77). -/
  | notAnAck
  /-- The FSM-IN words 011 and 111, whose event code cannot occur (R85, R89). -/
  | reservedEvent
deriving DecidableEq, Repr

/-- The command word (R81): `rst = 1` has priority, then `cmd`. Every word has a row. -/
def decodeCmd (c : BitVec 11) : Instr :=
  let cmd := c.extractLsb' 8 2
  let data := c.extractLsb' 0 8
  if c.getLsbD 10 then .rst cmd data
  else if cmd = 0 then .nop data
  else if cmd = 1 then .rxb data
  else if cmd = 2 then .rxe data
  else .cmdRsvd data

/-- An inbound datagram (R72, R74): the structural decoding, then DATA0 or DATA1 by the sequence byte. -/
def decodeData (d : List Byte) : Except DecodeError Instr :=
  match decodeFields d with
  | .error c => .error (.malformed c)
  | .ok r =>
    if r.seq then .ok (.data1 r.src r.dst r.flag r.len r.claimed r.payload)
    else .ok (.data0 r.src r.dst r.flag r.len r.claimed r.payload)

/-- An outbound word (R76, R77): ACK0 or ACK1 by the sequence byte `A[39:32]`. -/
def decodeAck (a : BitVec 72) : Except DecodeError Instr :=
  let src := a.extractLsb' 56 16
  let dst := a.extractLsb' 40 16
  let seq := a.extractLsb' 32 8
  let csum := a.extractLsb' 0 32
  if seq = 0 then .ok (.ack0 src dst csum)
  else if seq = 1 then .ok (.ack1 src dst csum)
  else .error .notAnAck

/-- An FSM-IN word (R89): the six legal words. -/
def decodeFsm (f : BitVec 3) : Except DecodeError Instr :=
  if f = 0b000#3 then .ok .fsmZAllFine
  else if f = 0b100#3 then .ok .fsmOAllFine
  else if f = 0b001#3 then .ok .fsmZIsCorrupt
  else if f = 0b101#3 then .ok .fsmOIsCorrupt
  else if f = 0b010#3 then .ok .fsmZWrongAlt
  else if f = 0b110#3 then .ok .fsmOWrongAlt
  else .error .reservedEvent

/-- The decoder, total on everything that can be presented. -/
def decode (e : Enc) : Except DecodeError Instr :=
  match e with
  | .cmd c => .ok (decodeCmd c)
  | .data d => decodeData d
  | .ack a => decodeAck a
  | .fsm f => decodeFsm f

/-! ## Encoding -/

/-- The first 12 bytes of a data datagram, as they travel (R71). -/
def dataPrefix (src dst : BitVec 16) (seq flag : Byte) (len : BitVec 16) (csum : BitVec 32) : List Byte :=
  bytesBe16 src ++ bytesBe16 dst ++ [seq, flag] ++ bytesBe16 len ++ bytesBe32 csum

/-- The word `W` of the first 12 bytes, byte 0 in `W[95:88]` (R71). -/
def dataWord (src dst : BitVec 16) (seq flag : Byte) (len : BitVec 16) (csum : BitVec 32) : BitVec 96 :=
  src ++ dst ++ seq ++ flag ++ len ++ csum

/-- The word `A` of an acknowledgment, byte 0 in `A[71:64]` (R76). -/
def ackWord (src dst : BitVec 16) (seq : Byte) (csum : BitVec 32) : BitVec 72 :=
  src ++ dst ++ seq ++ csum

/-- The command word `{ rst, cmd, data }` (R80). -/
def cmdWord (rst : BitVec 1) (cmd : BitVec 2) (data : Byte) : BitVec 11 :=
  rst ++ cmd ++ data

/-- The encoder: what is presented for an instruction. -/
def encode (i : Instr) : Enc :=
  match i with
  | .rst cmd data => .cmd (cmdWord 1 cmd data)
  | .nop data => .cmd (cmdWord 0 0 data)
  | .rxb b => .cmd (cmdWord 0 1 b)
  | .rxe data => .cmd (cmdWord 0 2 data)
  | .cmdRsvd data => .cmd (cmdWord 0 3 data)
  | .data0 src dst flag len csum payload => .data (dataPrefix src dst 0 flag len csum ++ payload)
  | .data1 src dst flag len csum payload => .data (dataPrefix src dst 1 flag len csum ++ payload)
  | .ack0 src dst csum => .ack (ackWord src dst 0 csum)
  | .ack1 src dst csum => .ack (ackWord src dst 1 csum)
  | .fsmZAllFine => .fsm 0b000#3
  | .fsmOAllFine => .fsm 0b100#3
  | .fsmZIsCorrupt => .fsm 0b001#3
  | .fsmOIsCorrupt => .fsm 0b101#3
  | .fsmZWrongAlt => .fsm 0b010#3
  | .fsmOWrongAlt => .fsm 0b110#3

/-! ## The opcode table -/

/-- A row of spec/opcode_table.json: its word has the row's value under the row's mask. -/
structure OpcodeRow where
  mnemonic : String
  width    : Nat
  mask     : Nat
  value    : Nat
deriving DecidableEq, Repr

/-- The row of an instruction, transcribed from spec/opcode_table.json. -/
def opcodeRow (i : Instr) : OpcodeRow :=
  match i with
  | .rst _ _ => ⟨"RST", 11, 0x400, 0x400⟩
  | .nop _ => ⟨"NOP", 11, 0x700, 0x000⟩
  | .rxb _ => ⟨"RXB", 11, 0x700, 0x100⟩
  | .rxe _ => ⟨"RXE", 11, 0x700, 0x200⟩
  | .cmdRsvd _ => ⟨"CMD_RSVD", 11, 0x700, 0x300⟩
  | .data0 _ _ _ _ _ _ => ⟨"DATA0", 96, 0x00000000FF00000000000000, 0x000000000000000000000000⟩
  | .data1 _ _ _ _ _ _ => ⟨"DATA1", 96, 0x00000000FF00000000000000, 0x000000000100000000000000⟩
  | .ack0 _ _ _ => ⟨"ACK0", 72, 0x00000000FF00000000, 0x000000000000000000⟩
  | .ack1 _ _ _ => ⟨"ACK1", 72, 0x00000000FF00000000, 0x000000000100000000⟩
  | .fsmZAllFine => ⟨"FSM_Z_ALLFINE", 3, 0x7, 0x0⟩
  | .fsmOAllFine => ⟨"FSM_O_ALLFINE", 3, 0x7, 0x4⟩
  | .fsmZIsCorrupt => ⟨"FSM_Z_ISCORRUPT", 3, 0x7, 0x1⟩
  | .fsmOIsCorrupt => ⟨"FSM_O_ISCORRUPT", 3, 0x7, 0x5⟩
  | .fsmZWrongAlt => ⟨"FSM_Z_WRONGALT", 3, 0x7, 0x2⟩
  | .fsmOWrongAlt => ⟨"FSM_O_WRONGALT", 3, 0x7, 0x6⟩

/-- The word of a thing presented, numbered as the table numbers it: a datagram's first 12 bytes as `W` (R71), any other
word as it is. -/
def tableWord (e : Enc) : Nat :=
  match e with
  | .cmd c => c.toNat
  | .data d => (d.take 12).foldl (fun n b => 256 * n + b.toNat) 0
  | .ack a => a.toNat
  | .fsm f => f.toNat

/-- A data datagram from its table word: the 12 bytes of `W` most significant first, and `len` payload bytes of zero. -/
def tableDatagram (w : Nat) : List Byte :=
  let prefix12 := wordBytes 12 (BitVec.ofNat 96 w)
  prefix12 ++ List.replicate (extractPayloadLength prefix12).toNat 0

/-- The thing presented for a table word of `nbits` bits: the widths 3, 11, 72 and 96 of the four formats, or the whole
bytes 8 and 16 that hold the first two (log 20). A word with a bit beyond its format's width is no word of that format. -/
def tableEnc (nbits w : Nat) : Option Enc :=
  if nbits = 3 ∨ nbits = 8 then (if w < 2 ^ 3 then some (.fsm (BitVec.ofNat 3 w)) else none)
  else if nbits = 11 ∨ nbits = 16 then (if w < 2 ^ 11 then some (.cmd (BitVec.ofNat 11 w)) else none)
  else if nbits = 72 then (if w < 2 ^ 72 then some (.ack (BitVec.ofNat 72 w)) else none)
  else if nbits = 96 then (if w < 2 ^ 96 then some (.data (tableDatagram w)) else none)
  else none

/-- The instruction the decoder reads from a table word. -/
def decodeTableWord (nbits w : Nat) : Option Instr :=
  (tableEnc nbits w).bind fun e => (decode e).toOption

end Sys2Proof
end

