-- ==== Sys2Proof/Machine/Crc.lean ====
section
/-! DEFINITION. The CRC-32 checksum (40_crc.md R100 to R110). -/

namespace Sys2Proof.Machine

/-- The register value of `CRC_INIT` (R100). -/
def crcInit : BitVec 32 := 0xFFFFFFFF

/-- One of the eight steps of `crc_update` (R101): a logical shift right by one, and the reflected polynomial added where
the bit shifted out is 1. -/
def crcShift (c : BitVec 32) : BitVec 32 :=
  if c.getLsbD 0 then (c >>> 1) ^^^ 0xEDB88320#32 else c >>> 1

/-- `n` such steps. -/
def crcShifts (n : Nat) (c : BitVec 32) : BitVec 32 :=
  match n with
  | 0 => c
  | n + 1 => crcShifts n (crcShift c)

/-- `CRC_UPDATE(c, b)` (R101): the byte enters bits 7:0, then eight steps. -/
def crcUpdate (c : BitVec 32) (b : Byte) : BitVec 32 := crcShifts 8 (c ^^^ b.setWidth 32)

/-- `CRC_FINAL(c)` (R102). -/
def crcFinal (c : BitVec 32) : BitVec 32 := c ^^^ 0xFFFFFFFF

/-- The register after the bytes `m`, from `c` (R104's `c_i`). -/
def crcRegister (c : BitVec 32) (m : List Byte) : BitVec 32 := m.foldl crcUpdate c

/-- `crc32(m)` (R104). -/
def crc32 (m : List Byte) : BitVec 32 := crcFinal (crcRegister crcInit m)

/-- The entry `T[i]` of the table-driven engine (R103). -/
def crcTableEntry (i : Byte) : BitVec 32 := crcShifts 8 (i.setWidth 32)

/-- `crc_update` by table (R103). -/
def crcUpdateByTable (c : BitVec 32) (b : Byte) : BitVec 32 :=
  (c >>> 8) ^^^ crcTableEntry ((c ^^^ b.setWidth 32).extractLsb' 0 8)

/-- The spec's checksum, CRC-32/ISO-HDLC, as a configuration (R9, D1; log 1). -/
def isoHdlc : Config.Cfg := { crc := crc32 }

/-- `compute_checksum(header_bytes, payload_bytes) -> u32` (R109), for a configured checksum. -/
def computeChecksum (cfg : Config.Cfg) (header payload : List Byte) : BitVec 32 := cfg.crc (header ++ payload)

/-- `encode_data` (R93): the datagram an honest sender makes of a payload of at most 65535 bytes. -/
def encodeData (cfg : Config.Cfg) (src dst : BitVec 16) (seq flag : Byte) (payload : List Byte) : List Byte :=
  let h := bytesBe16 src ++ bytesBe16 dst ++ [seq] ++ [flag] ++ bytesBe16 (BitVec.ofNat 16 payload.length)
  h ++ bytesBe32 (computeChecksum cfg h payload) ++ payload

end Sys2Proof.Machine
end

