-- ==== Sys2Proof/Machine/State.lean ====
section
/-! DEFINITION. What ABRX holds: its registers and memory (10_state.md R20), its pins, what the environment presents next,
and the state after reset (R40). -/

namespace Sys2Proof.Machine

/-- `Out.status` (R17): what an RXE reports of its datagram. -/
structure Status where
  event  : Event
  action : Action
  err    : Err
  mcause : Option MCause
deriving DecidableEq, Repr

/-- The output record of a step (R17): the 9 bytes of an acknowledgment, a delivered payload, a status. -/
structure Out where
  ack     : Option (List Byte)
  deliver : Option (List Byte)
  status  : Option Status
deriving DecidableEq, Repr

/-- `Out.none` (R17). -/
def Out.none : Out := { ack := .none, deliver := .none, status := .none }

/-- What the FSM answers: `execute(state, event) -> (action, nextState)` (R151). -/
structure FsmOut where
  action : Action
  next   : FsmState
deriving DecidableEq, Repr

/-- What classification finds of a datagram: `(Event, Err, Option MCause, Option payload)` (R130). -/
structure Verdict where
  event   : Event
  err     : Err
  mcause  : Option MCause
  payload : Option (List Byte)
deriving DecidableEq, Repr

/-- One thing the environment presents (log 6). An FSM event carries no state bit: that bit of the FSM-IN word is the
register STATE (R89; log 16). -/
inductive Input where
  /-- The two configuration inputs change: the script line `CFG src=.. dst=..` (R91, R243). -/
  | config (src dst : BitVec 16)
  /-- A command word at the command port (R80). -/
  | port (c : BitVec 11)
  /-- A whole inbound datagram, the input `RXD(d)` (R92, R196). -/
  | datagram (d : List Byte)
  /-- An acknowledgment word, the framer's in the RXE step that emits it (R76, R179; log 14). -/
  | ackWord (a : BitVec 72)
  /-- An event code at the FSM, its input in the RXE step that classifies so (R85, R89, R164; log 15). -/
  | event (e : BitVec 2)
deriving DecidableEq, Repr

/-- The complete state of one ABRX instance (R20), then its input and output pins, then the model's own fields. -/
structure State where
  /-- `HDR[0..7]` (R22). -/
  hdr        : Vector Byte 8
  /-- `CSUM[0..3]` (R24). -/
  csum       : Vector Byte 4
  /-- `CRC`, the unfinalised running register (R25). -/
  crc        : BitVec 32
  /-- `RXCNT`, the receive byte counter (R26). -/
  rxcnt      : BitVec 17
  /-- `PBUF` (R35): the cells written since the last reset, by address (log 5). -/
  pbuf       : List Host.Cell
  /-- `STATE` (R29). -/
  state      : FsmState
  /-- `LAV`, last ACK valid (R31). -/
  lav        : Bit
  /-- `LAB`, last ACK bit (R31). -/
  lab        : Bit
  /-- `CFG_SRC` (R33). -/
  cfgSrc     : BitVec 16
  /-- `CFG_DST` (R33). -/
  cfgDst     : BitVec 16
  /-- The input `ACK_SRC_PORT` (R8, R250). -/
  ackSrcPort : BitVec 16
  /-- The input `ACK_DST_PORT` (R8, R250). -/
  ackDstPort : BitVec 16
  /-- What the environment presents next, oldest first (R63, R256; log 6). -/
  inputs     : List Input
  /-- The outputs of the last step (R17, R90). -/
  out        : Out
  /-- What the FSM answered in the last step (R151; log 19). -/
  fsmOut     : Option FsmOut
  /-- How many RST operations have run: it only names the free values (log 27). -/
  resets     : Nat
deriving DecidableEq, Repr

/-- Why a step faults. ABRX has no fault outcome: every operation is total and no error is fatal (R185, R210, R223), so
there is no constructor (log 26). -/
inductive Fault where
deriving DecidableEq, Repr

/-- Why a step is refused. No step is: the block never stops (R223). -/
inductive Refusal where
  /-- Raised by `exec` alone, for an instruction that has no meaning yet. Safe: nothing is proved of it. No arm of `exec`
  raises it now. -/
  | notModelled (mnemonic : String)
deriving DecidableEq, Repr

/-- The machine right after reset (R40, R41): the values of the table of R40; for `HDR` and `CSUM`, which it leaves
unspecified, zero (log 3); `PBUF` lists nothing (log 5); the ports are the open constants of Config (log 2). -/
def State.reset : State where
  hdr        := Vector.replicate 8 0
  csum       := Vector.replicate 4 0
  crc        := 0xFFFFFFFF
  rxcnt      := 0
  pbuf       := []
  state      := .waitForZero
  lav        := false
  lab        := false
  cfgSrc     := Config.ackSrcPort
  cfgDst     := Config.ackDstPort
  ackSrcPort := Config.ackSrcPort
  ackDstPort := Config.ackDstPort
  inputs     := []
  out        := Out.none
  fsmOut     := none
  resets     := 0

end Sys2Proof.Machine
end

