-- ==== Sys2Proof/Machine/Ops.lean ====
section
/-! DEFINITION. The named operations over PBUF and the registers, and raising an error. -/

namespace Sys2Proof.Machine

/-! ## PBUF (20_memory.md R50 to R54) -/

/-- PBUF's cells in their one canonical form: addresses strictly rising, each one of 0 to 65534 (R50). An unlisted cell
holds no value the model knows, so no entry equals what an unlisted one reads as (log 5). -/
abbrev Memory.wf (m : List Host.Cell) : Prop :=
  m.Pairwise (fun c d => c.1 < d.1) ∧ ∀ c ∈ m, c.1 < Config.maxPayload

/-- The byte listed at an address, if one is. -/
def memGet (m : List Host.Cell) (a : Nat) : Option Byte :=
  match m with
  | [] => none
  | c :: rest => if c.1 = a then some c.2 else memGet rest a

/-- The cells after a byte is written at an address, in canonical form. -/
def memPut (m : List Host.Cell) (a : Nat) (b : Byte) : List Host.Cell :=
  match m with
  | [] => [(a, b)]
  | c :: rest =>
    if a < c.1 then (a, b) :: c :: rest
    else if a = c.1 then (a, b) :: rest
    else c :: memPut rest a b

/-- What a cell of PBUF reads as: the byte written since the last reset, else that cell's unspecified contents, a free
value (R39, R40, U3; log 5). -/
def readPbuf (s : State) (a : Nat) : Byte :=
  (memGet s.pbuf a).getD (Config.unspecifiedByte s.resets (Config.minFrame + a))

/-- `MemRead(addr, n)` (R16). -/
def memRead (s : State) (addr n : Nat) : List Byte :=
  (List.range n).map fun i => readPbuf s (addr + i)

/-! ## Register writes -/

/-- No outputs in this step: `Out <- Out.none` (R17). -/
def State.quiet (s : State) : State := { s with out := Out.none, fsmOut := none }

/-- `HDR[i] <- b` (R22). -/
def State.putHdr (s : State) (i : Fin 8) (b : Byte) : State := { s with hdr := s.hdr.set i b }

/-- `CSUM[i] <- b` (R24). -/
def State.putCsum (s : State) (i : Fin 4) (b : Byte) : State := { s with csum := s.csum.set i b }

/-- `MemWrite(addr, 1, b)` (R16). -/
def State.putPbuf (s : State) (a : Nat) (b : Byte) : State := { s with pbuf := memPut s.pbuf a b }

/-- `CRC <- v` (R25). -/
def State.putCrc (s : State) (v : BitVec 32) : State := { s with crc := v }

/-- `RXCNT <- n` (R26). -/
def State.putRxcnt (s : State) (n : Nat) : State := { s with rxcnt := BitVec.ofNat 17 n }

/-- `LAV <- 1 ; LAB <- b` (R176). -/
def State.putLastAck (s : State) (b : Bit) : State := { s with lav := true, lab := b }

/-- `STATE <- next`, with the answer that gave it (R29, R151). -/
def State.putFsm (s : State) (r : FsmOut) : State := { s with state := r.next, fsmOut := some r }

/-- The FSM's answer alone: the register STATE stays (R151; log 15). -/
def State.putAnswer (s : State) (r : FsmOut) : State := { s with fsmOut := some r }

/-- The outputs of this step (R17). -/
def State.putOut (s : State) (o : Out) : State := { s with out := o }

/-- The environment drives the two configuration inputs (R243, R250). -/
def State.putPorts (s : State) (src dst : BitVec 16) : State := { s with ackSrcPort := src, ackDstPort := dst }

/-- What remains to be presented. -/
def State.putInputs (s : State) (l : List Input) : State := { s with inputs := l }

/-- The session stands at a state, `LAV` and `LAB` as R32 has them there: only placing a table word does this (log 6). -/
def State.putSession (s : State) (st : FsmState) (expected : Bit) : State :=
  { s with state := st, lav := s.lav || expected, lab := s.lav && !expected }

/-- `RST` (R186, R40, R240): the session state and counters at their reset values, the ports sampled, the output record
empty; `HDR`, `CSUM` and `PBUF` unspecified afterwards, so free values of the new epoch (logs 4 and 5). -/
def State.restart (s : State) : State :=
  { s with
    hdr    := Vector.ofFn fun i : Fin 8 => Config.unspecifiedByte (s.resets + 1) i
    csum   := Vector.ofFn fun i : Fin 4 => Config.unspecifiedByte (s.resets + 1) (8 + i)
    crc    := crcInit
    rxcnt  := 0
    pbuf   := []
    state  := .waitForZero
    lav    := false
    lab    := false
    cfgSrc := s.ackSrcPort
    cfgDst := s.ackDstPort
    out    := Out.none
    fsmOut := none
    resets := s.resets + 1 }

/-! ## Raising an error (60_exceptions.md R210 to R221) -/

/-- The event an error maps to (R211 to R213); NONE goes with AllFine (R220). -/
def errorEvent (err : Err) : Event :=
  match err with
  | .noError => .allFine
  | .malformed => .isCorrupt
  | .checksumMismatch => .isCorrupt
  | .sequenceMismatch => .wrongAlternating

/-- `raise <Error>(info)` (R16, R221): record the error and its cause and select the event it maps to. Control goes
nowhere: the step continues with that event, and the reaction is the FSM's (R220). There is no return (R222). -/
def raiseError (err : Err) (info : Option MCause) : Verdict :=
  { event := errorEvent err, err := err, mcause := info, payload := none }

end Sys2Proof.Machine
end

