-- ==== Sys2Proof/Machine/Operands.lean ====
section
/-! DEFINITION. Where operands lie: the route of a byte, the field views, the received view, the expected bit. -/

namespace Sys2Proof.Machine

/-- Where a byte goes (R120). -/
inductive Route where
  | hdr (i : Fin 8)
  | csum (i : Fin 4)
  | pbuf (a : Fin 65535)
  | drop
deriving DecidableEq, Repr

/-- `route(k)` (R120; the address map of R51). -/
def route (k : Nat) : Route :=
  if h : k < 8 then .hdr ⟨k, h⟩
  else if h : k < 12 then .csum ⟨k - 8, by omega⟩
  else if h : k < 65547 then .pbuf ⟨k - 12, by omega⟩
  else .drop

/-- The views of the header registers (R23). -/
def State.srcView (s : State) : BitVec 16 := be16 s.hdr[0] s.hdr[1]
def State.dstView (s : State) : BitVec 16 := be16 s.hdr[2] s.hdr[3]
def State.seqView (s : State) : Byte := s.hdr[4]
def State.flagView (s : State) : Byte := s.hdr[5]
def State.lenView (s : State) : BitVec 16 := be16 s.hdr[6] s.hdr[7]

/-- `CLAIMED` (R24). -/
def State.claimedView (s : State) : BitVec 32 := be32 s.csum[0] s.csum[1] s.csum[2] s.csum[3]

/-- `RXVIEW(S)` (R121): the datagram the scratch registers hold. A counter above 65548 occurs in no run; it is read as
overlong (log 11). -/
def rxView (s : State) : RxView :=
  let n := s.rxcnt.toNat
  if Config.rxcntSat ≤ n then .overlong
  else .bytes (s.hdr.toList.take n ++ s.csum.toList.take (n - 8) ++ memRead s 0 (n - 12))

/-- The bytes received so far that the checksum covers (R105, R110): offsets 0 to 7 and 12 up. -/
def coveredBytes (s : State) : List Byte :=
  let n := s.rxcnt.toNat
  s.hdr.toList.take n ++ memRead s 0 (min (n - 12) Config.maxPayload)

/-- The delivery window `PBUF[0..LEN)` (R55). -/
def deliveryWindow (s : State) : List Byte := memRead s 0 s.lenView.toNat

/-- The expected bit, a derived read of STATE (R30). -/
def expectedBit (st : FsmState) : Bit :=
  match st with
  | .waitForZero => false
  | .waitForOne => true

/-- The state that expects a given bit: the code of a state equals its expected bit (R84). -/
def stateOfBit (b : Bit) : FsmState := if b then .waitForOne else .waitForZero

/-- `flip` (R151). -/
def flipState (st : FsmState) : FsmState :=
  match st with
  | .waitForZero => .waitForOne
  | .waitForOne => .waitForZero

/-- The FSM-IN word `F = { state, event[1:0] }` the FSM reads when an event code is presented to it (R89). -/
def fsmWord (st : FsmState) (e : BitVec 2) : BitVec 3 := BitVec.ofBool (expectedBit st) ++ e

end Sys2Proof.Machine
end

