-- ==== Sys2Proof/Machine/Flags.lean ====
section
/-! DEFINITION. What a datagram is found to be. ABRX holds no flags (10_state.md R28): its checksum comparison, its
sequence-bit comparator and its classification are combinational values inside the RXE step, and its status is an output. -/

namespace Sys2Proof.Machine

/-- `checksum_ok = (crc_final(CRC) = CLAIMED)` (R106), with the running register as the computed value (log 10). -/
def registerChecksumOk (s : State) (r : Fields) : Bool := decide (crcFinal s.crc = r.claimed)

/-- The same comparison with the checksum recomputed from the datagram's bytes (R109, R130). -/
def batchChecksumOk (cfg : Config.Cfg) (r : Fields) : Bool := decide (computeChecksum cfg r.header r.payload = r.claimed)

/-- `bit_match = (r.seq = expectedBit)` (R150). -/
def bitMatch (seq e : Bit) : Bool := seq == e

/-- `classify(rx, expectedBit)` (R130): structure, then checksum, then sequence bit (R131), the checksum comparison given. -/
def classifyWith (checksumOk : Fields → Bool) (rx : RxView) (e : Bit) : Verdict :=
  match decodeView rx with
  | .error c => raiseError .malformed (some c)
  | .ok r =>
    if checksumOk r then
      if bitMatch r.seq e then { event := .allFine, err := .noError, mcause := none, payload := some r.payload }
      else raiseError .sequenceMismatch none
    else raiseError .checksumMismatch none

/-- `classify` as R130 writes it, for a configured checksum. -/
def classify (cfg : Config.Cfg) (rx : RxView) (e : Bit) : Verdict := classifyWith (batchChecksumOk cfg) rx e

/-- `is_corrupt(datagram_bytes) -> bool` (R129): total, and true where `decode` fails. -/
def isCorrupt (cfg : Config.Cfg) (rx : RxView) : Bool :=
  match decodeView rx with
  | .error _ => true
  | .ok r => !batchChecksumOk cfg r

/-- `execute(state, event) -> (action, nextState)` (R151): the six rows R152 to R157. -/
def execute (st : FsmState) (ev : Event) : FsmOut :=
  match st, ev with
  | .waitForZero, .allFine => ⟨.deliver, .waitForOne⟩
  | .waitForOne, .allFine => ⟨.deliver, .waitForZero⟩
  | .waitForZero, .isCorrupt => ⟨.ignore, .waitForZero⟩
  | .waitForOne, .isCorrupt => ⟨.ignore, .waitForOne⟩
  | .waitForZero, .wrongAlternating => ⟨.resend, .waitForZero⟩
  | .waitForOne, .wrongAlternating => ⟨.resend, .waitForOne⟩

end Sys2Proof.Machine
end

