-- ==== Sys2Proof/Machine/Sequencer.lean ====
section
/-! DEFINITION. The operations the meanings share: the ACK framer, the transition with its action's effects, the datagram
transaction, and receiving a byte, the end of a datagram and a whole datagram. -/

namespace Sys2Proof.Machine

/-- `build_ack(sequence_bit) -> bytes` (R170), for a configured checksum and given port registers. -/
def buildAck (cfg : Config.Cfg) (src dst : BitVec 16) (b : Bit) : List Byte :=
  let h := bytesBe16 src ++ bytesBe16 dst ++ [bitByte b]
  h ++ bytesBe32 (cfg.crc h)

/-- The acknowledgment of a bit in the session of a state: `build_ack` with CFG_SRC and CFG_DST (R170, R174). -/
def sessionAck (cfg : Config.Cfg) (s : State) (b : Bit) : List Byte := buildAck cfg s.cfgSrc s.cfgDst b

/-- The bit of the ACK an action emits, if it emits one (R176, R177, R178); `e` is the expected bit before the transition. -/
def actionAckBit (a : Action) (e : Bit) (s : State) : Option Bit :=
  match a with
  | .deliver => some e
  | .resend => if s.lav then some s.lab else none
  | .ignore => none

/-- The ACK an action emits (R170, R176, R177, R178). -/
def actionAck (cfg : Config.Cfg) (a : Action) (e : Bit) (s : State) : Option (List Byte) :=
  (actionAckBit a e s).map (sessionAck cfg s)

/-- What an action delivers: the payload on Deliver, nothing otherwise (R158, R190). -/
def actionPayload (a : Action) (payload : Option (List Byte)) : Option (List Byte) :=
  match a with
  | .deliver => payload
  | .resend => none
  | .ignore => none

/-- What an action does to LAV and LAB (R176, R177, R178). -/
def actionLastAck (a : Action) (e : Bit) (s : State) : State :=
  match a with
  | .deliver => s.putLastAck e
  | .resend => s
  | .ignore => s

/-- Steps 3 to 5 of the sequencer for a classified event (R190): the FSM's transition from `st` and the effects of its
action (R158). The status of the step is the caller's. -/
def transition (cfg : Config.Cfg) (st : FsmState) (ev : Event) (payload : Option (List Byte)) (s : State) : State :=
  let r := execute st ev
  let e := expectedBit st
  ((actionLastAck r.action e s).putOut
    { ack := actionAck cfg r.action e s, deliver := actionPayload r.action payload, status := none }).putFsm r

/-- `process(cfg, S, rx)` with its checksum comparison given (R190): classify, transition, report. -/
def processWith (cfg : Config.Cfg) (checksumOk : Fields → Bool) (rx : RxView) (s : State) : State :=
  let v := classifyWith checksumOk rx (expectedBit s.state)
  let t := transition cfg s.state v.event v.payload s
  t.putOut { t.out with
    status := some { event := v.event, action := (execute s.state v.event).action, err := v.err, mcause := v.mcause } }

/-- `process(cfg, S, rx)` (R190), as the spec writes it: the checksum recomputed from the datagram. -/
def process (cfg : Config.Cfg) (rx : RxView) (s : State) : State := processWith cfg (batchChecksumOk cfg) rx s

/-- Store a byte and fold it into the CRC where it is covered: the four cases of RXB (R188). -/
def storeByte (r : Route) (b : Byte) (s : State) : State :=
  match r with
  | .hdr i => (s.putHdr i b).putCrc (crcUpdate s.crc b)
  | .csum i => s.putCsum i b
  | .pbuf a => (s.putPbuf a b).putCrc (crcUpdate s.crc b)
  | .drop => s

/-- `RXB(b)` (R188): the byte goes to `route(RXCNT)`, the counter advances by one and saturates (R26), nothing is output. -/
def receiveByte (s : State) (b : Byte) : State :=
  let k := s.rxcnt.toNat
  ((storeByte (route k) b s).putRxcnt (min (k + 1) Config.rxcntSat)).quiet

/-- The event of what has been received: the FSM's input in the RXE step that ends it (R89, R130, R164). -/
def receivedEvent (s : State) : Event := (classifyWith (registerChecksumOk s) (rxView s) (expectedBit s.state)).event

/-- The bit of the ACK that RXE emits of what has been received, if it emits one (R176, R177, R178). -/
def emittedAckBit (s : State) : Option Bit :=
  actionAckBit (execute s.state (receivedEvent s)).action (expectedBit s.state) s

/-- `RXE` (R189): judge what was received, then clear the counter and the CRC. The computed checksum is the register's
(R25, R54, R106; log 10). -/
def endDatagram (s : State) : State :=
  ((processWith isoHdlc (registerChecksumOk s) (rxView s) s).putRxcnt 0).putCrc crcInit

/-- `RXD d` (R92): RXB for each byte, then RXE (R196; log 12). -/
def receiveDatagram (d : List Byte) (s : State) : State := endDatagram (d.foldl receiveByte s)

end Sys2Proof.Machine
end

