-- ==== Sys2Proof/Machine/Ack.lean ====
section
/-! DEFINITION. The meanings of the outbound units (43_ack_framer.md R170 to R180): an ACK leaves the block only in the RXE step
that decided it (R175, R179). -/

namespace Sys2Proof.Machine

/-- The acknowledgment of a bit as an operation: the RXE step that emits it (R175 to R177). Where RXE would not emit that ACK the
framer emits nothing (R179, R180) and the block keeps its state (log 14). -/
def ackStep (b : Bit) (s : State) : State := if emittedAckBit s = some b then endDatagram s else s.quiet

/-- ACK0 (R171) = build_ack(0). It has no operands beyond the configuration: the fields of the word are what the framer
fills in, so they are not read (log 14). -/
def execAck0 (_src _dst : BitVec 16) (_csum : BitVec 32) (s : State) : Host.Outcome State Fault Refusal :=
  .next (ackStep false s)

/-- ACK1 (R172) = build_ack(1), likewise. -/
def execAck1 (_src _dst : BitVec 16) (_csum : BitVec 32) (s : State) : Host.Outcome State Fault Refusal :=
  .next (ackStep true s)

end Sys2Proof.Machine
end

