-- ==== Sys2Proof/Machine/Datagram.lean ====
section
/-! DEFINITION. The meanings of the inbound units (44_port_operations.md R190 to R192). -/

namespace Sys2Proof.Machine

/-- DATA0 (R191): the datagram with sequence byte 0x00 is received, whatever its checksum and length field (R78). -/
def execData0 (src dst : BitVec 16) (flag : Byte) (len : BitVec 16) (csum : BitVec 32) (payload : List Byte) (s : State) :
    Host.Outcome State Fault Refusal :=
  .next (receiveDatagram (dataPrefix src dst 0 flag len csum ++ payload) s)

/-- DATA1 (R192): likewise with sequence byte 0x01. -/
def execData1 (src dst : BitVec 16) (flag : Byte) (len : BitVec 16) (csum : BitVec 32) (payload : List Byte) (s : State) :
    Host.Outcome State Fault Refusal :=
  .next (receiveDatagram (dataPrefix src dst 1 flag len csum ++ payload) s)

end Sys2Proof.Machine
end

