-- ==== Sys2Proof/Machine/Fsm.lean ====
section
/-! DEFINITION. The meanings of the FSM-IN words (42_fsm.md R151 to R164): `execute` is evaluated inside the RXE step, on the word
of STATE and the event of what has been received (R89, R164). -/

namespace Sys2Proof.Machine

/-- An FSM-IN word as an operation: the RXE step in which the FSM reads it, with the transition of its row and the effects of
its action (R152 to R158, R189). Where STATE or the received event is another, the word is not the FSM's input: the model shows
`execute`'s answer to it (R151), and nothing is emitted or kept (log 15). -/
def fsmStep (st : FsmState) (ev : Event) (s : State) : State :=
  if s.state = st ∧ receivedEvent s = ev then endDatagram s else s.quiet.putAnswer (execute st ev)

/-- FSM_Z_ALLFINE (R152). -/
def execFsmZAllFine (s : State) : Host.Outcome State Fault Refusal := .next (fsmStep .waitForZero .allFine s)

/-- FSM_O_ALLFINE (R153). -/
def execFsmOAllFine (s : State) : Host.Outcome State Fault Refusal := .next (fsmStep .waitForOne .allFine s)

/-- FSM_Z_ISCORRUPT (R154). -/
def execFsmZIsCorrupt (s : State) : Host.Outcome State Fault Refusal := .next (fsmStep .waitForZero .isCorrupt s)

/-- FSM_O_ISCORRUPT (R155). -/
def execFsmOIsCorrupt (s : State) : Host.Outcome State Fault Refusal := .next (fsmStep .waitForOne .isCorrupt s)

/-- FSM_Z_WRONGALT (R156). -/
def execFsmZWrongAlt (s : State) : Host.Outcome State Fault Refusal := .next (fsmStep .waitForZero .wrongAlternating s)

/-- FSM_O_WRONGALT (R157). -/
def execFsmOWrongAlt (s : State) : Host.Outcome State Fault Refusal := .next (fsmStep .waitForOne .wrongAlternating s)

end Sys2Proof.Machine
end

