-- ==== Sys2Proof/Machine/Port.lean ====
section
/-! DEFINITION. The meanings of the command port's operations (44_port_operations.md R185 to R189, R193). -/

namespace Sys2Proof.Machine

/-- RST (R186): begin a session. Its `cmd` and `data` bits are ignored (R81). -/
def execRst (_cmd : BitVec 2) (_data : Byte) (s : State) : Host.Outcome State Fault Refusal := .next s.restart

/-- NOP (R187): state unchanged, no outputs. -/
def execNop (_data : Byte) (s : State) : Host.Outcome State Fault Refusal := .next s.quiet

/-- RXB b (R188). -/
def execRxb (b : Byte) (s : State) : Host.Outcome State Fault Refusal := .next (receiveByte s b)

/-- RXE (R189). -/
def execRxe (_data : Byte) (s : State) : Host.Outcome State Fault Refusal := .next (endDatagram s)

/-- CMD_RSVD (R193): as NOP. The environment must not present it (R82; log 9). -/
def execCmdRsvd (_data : Byte) (s : State) : Host.Outcome State Fault Refusal := .next s.quiet

end Sys2Proof.Machine
end

