-- ==== Sys2Proof/Machine/Dispatch.lean ====
section
/-! DEFINITION. The meaning of every instruction. -/

namespace Sys2Proof.Machine

def exec (i : Instr) (s : State) : Host.Outcome State Fault Refusal :=
  match i with
  | .rst cmd data => Sys2Proof.Machine.execRst cmd data s
  | .nop data => Sys2Proof.Machine.execNop data s
  | .rxb b => Sys2Proof.Machine.execRxb b s
  | .rxe data => Sys2Proof.Machine.execRxe data s
  | .cmdRsvd data => Sys2Proof.Machine.execCmdRsvd data s
  | .data0 src dst flag len csum payload => Sys2Proof.Machine.execData0 src dst flag len csum payload s
  | .data1 src dst flag len csum payload => Sys2Proof.Machine.execData1 src dst flag len csum payload s
  | .ack0 src dst csum => Sys2Proof.Machine.execAck0 src dst csum s
  | .ack1 src dst csum => Sys2Proof.Machine.execAck1 src dst csum s
  | .fsmZAllFine => Sys2Proof.Machine.execFsmZAllFine s
  | .fsmOAllFine => Sys2Proof.Machine.execFsmOAllFine s
  | .fsmZIsCorrupt => Sys2Proof.Machine.execFsmZIsCorrupt s
  | .fsmOIsCorrupt => Sys2Proof.Machine.execFsmOIsCorrupt s
  | .fsmZWrongAlt => Sys2Proof.Machine.execFsmZWrongAlt s
  | .fsmOWrongAlt => Sys2Proof.Machine.execFsmOWrongAlt s

end Sys2Proof.Machine
end

