-- ==== Sys2Proof/Machine/Script.lean ====
section
/-! DEFINITION. The script notation's operations and pseudo-operations (30_encoding.md R91, R92). -/

namespace Sys2Proof.Machine

/-- `RXD d` (R92) as operations: RXB for each byte, then RXE. -/
def rxdInstrs (d : List Byte) : List Instr := d.map Instr.rxb ++ [.rxe 0]

/-- `RXD d` as command words at the port (R92, R80). -/
def rxdInputs (d : List Byte) : List Input :=
  d.map (fun b => Input.port (cmdWord 0 1 b)) ++ [.port (cmdWord 0 2 0)]

/-- `DATA src, dst, seq, flag, <payload>` (R92): RXD of an honest datagram. -/
def dataInputs (src dst : BitVec 16) (seq flag : Byte) (payload : List Byte) : List Input :=
  rxdInputs (encodeData isoHdlc src dst seq flag payload)

/-- `FLIP k, d` (R92): bit `k mod 8` of byte `k div 8` inverted. -/
def flipBit (k : Nat) (d : List Byte) : List Byte :=
  d.modify (k / 8) fun b => b ^^^ (1#8 <<< (k % 8))

end Sys2Proof.Machine
end

