-- ==== Sys2Proof/Machine/Fetch.lean ====
section
/-! DEFINITION. Taking what the environment presents next, and what the block does with a thing that is no encoding of an
instruction. -/

namespace Sys2Proof.Machine

/-- What stands at the block's inputs in a step. -/
inductive Fetched where
  /-- Nothing is presented (R233, row idle; log 7). -/
  | idle
  /-- The two configuration inputs change (R243; log 8). -/
  | config (src dst : BitVec 16)
  /-- A word or a datagram is presented. -/
  | word (e : Enc)
deriving DecidableEq, Repr

/-- The head of what the environment presents. The FSM reads its event beside the register STATE (R89; log 16). -/
def fetch (s : State) : Fetched :=
  match s.inputs with
  | [] => .idle
  | .config src dst :: _ => .config src dst
  | .port c :: _ => .word (.cmd c)
  | .datagram d :: _ => .word (.data d)
  | .ackWord a :: _ => .word (.ack a)
  | .event e :: _ => .word (.fsm (fsmWord s.state e))

/-- The state when the head has been taken. -/
def taken (s : State) : State := s.putInputs s.inputs.tail

/-- A step in which nothing is presented: everything is kept and nothing is output, as in a NOP (R187, R227; log 7). -/
def idleStep (s : State) : State := s.quiet

/-- The environment drives the configuration inputs: only the next RST samples them (R33, R66, R250; log 8). -/
def configStep (src dst : BitVec 16) (s : State) : State := (s.putPorts src dst).quiet

/-- What the block does with a thing the decoder rejects. An inbound byte string that is not a structurally well-formed
datagram is received like any other and judged at its end (R78; log 13). The impossible FSM-IN words act as IsCorrupt: no
action, STATE kept (R165; log 17). An outbound word that is neither ACK is none the framer builds (R77), and nothing happens
(R223; log 18). No command word is rejected by the decoder. -/
def reject (e : Enc) (s : State) : Host.Outcome State Fault Refusal :=
  match e with
  | .cmd _ => .next s.quiet
  | .data d => .next (receiveDatagram d s)
  | .ack _ => .next s.quiet
  | .fsm _ => .next (s.quiet.putAnswer (execute s.state .isCorrupt))

/-- The session at the state that expects a bit, with a datagram received afresh and not yet ended. -/
def placeReceived (s : State) (expected : Bit) (d : List Byte) : State :=
  d.foldl receiveByte (((s.putSession (stateOfBit expected) expected).putRxcnt 0).putCrc crcInit)

/-- An honest datagram with an empty payload, in the given sequence bit (R93). -/
def placedDatagram (seq : Bit) : List Byte := encodeData isoHdlc 0 0 (bitByte seq) 0 []

/-- What has been received when the FSM reads an event code in the state that expects a bit (R130): a datagram of that bit for
AllFine, one of the other bit for WrongAlternating, nothing, which is SHORT, for the rest. -/
def placedForEvent (e : BitVec 2) (expected : Bit) : List Byte :=
  if e = 0 then placedDatagram expected else if e = 2 then placedDatagram (!expected) else []

/-- A state with a thing placed where the next step takes it. An FSM-IN word and an ACK word are values inside the RXE step of a
datagram (R89, R179), so placing one also places what that step judges: STATE at the word's bit, and a datagram received that
gives the word's event, or that is acknowledged with the word's bit (log 6). -/
def placeEnc (s : State) (e : Enc) : State :=
  match e with
  | .cmd c => s.putInputs (.port c :: s.inputs)
  | .data d => s.putInputs (.datagram d :: s.inputs)
  | .ack a => (placeReceived s (a.getLsbD 32) (placedDatagram (a.getLsbD 32))).putInputs (.ackWord a :: s.inputs)
  | .fsm f =>
    (placeReceived s (f.getLsbD 2) (placedForEvent (f.extractLsb' 0 2) (f.getLsbD 2))).putInputs
      (.event (f.extractLsb' 0 2) :: s.inputs)

/-- A state with a table word placed likewise; a word of no format places nothing. -/
def placeWord (s : State) (nbits w : Nat) : State :=
  match tableEnc nbits w with
  | some e => placeEnc s e
  | none => s

end Sys2Proof.Machine
end

