-- ==== Sys2Proof/Machine/Step.lean ====
section
/-! DEFINITION. One step: the head of what the environment presents is taken, decoded and executed. -/

namespace Sys2Proof.Machine

/-- One step of the block (R12, R63). -/
def step (s : State) : Host.Outcome State Fault Refusal :=
  match fetch s with
  | .idle => .next (idleStep s)
  | .config src dst => .next (configStep src dst (taken s))
  | .word e =>
    match decode e with
    | .ok i => exec i (taken s)
    | .error _ => reject e (taken s)

/-- The state with a table word placed where `step` takes its next instruction (log 6, log 20). -/
def State.withFetchWord (s : State) (nbits w : Nat) : State := placeWord s nbits w

end Sys2Proof.Machine
end

