-- ==== Sys2Proof/Machine/Pins.lean ====
section
/-! DEFINITION. The code values (30_encoding.md R84 to R88) and the output pins (R90) of an output record. -/

namespace Sys2Proof.Machine

/-- FSM state code (R84). -/
def stateCode (st : FsmState) : BitVec 1 :=
  match st with
  | .waitForZero => 0
  | .waitForOne => 1

/-- Event code (R85). -/
def eventCode (ev : Event) : BitVec 2 :=
  match ev with
  | .allFine => 0
  | .isCorrupt => 1
  | .wrongAlternating => 2

/-- Action code (R86). -/
def actionCode (a : Action) : BitVec 2 :=
  match a with
  | .ignore => 0
  | .deliver => 1
  | .resend => 2

/-- Error code (R87, R210). -/
def errCode (e : Err) : BitVec 3 :=
  match e with
  | .noError => 0
  | .malformed => 1
  | .checksumMismatch => 2
  | .sequenceMismatch => 3

/-- Malformed-cause code; with no cause the pins read 00 (R88). -/
def mcauseCode (c : Option MCause) : BitVec 2 :=
  match c with
  | none => 0
  | some .short => 0
  | some .length => 1
  | some .seqRange => 2

/-- The output pins (R90). -/
structure Pins where
  ackValid : Bit
  ackData  : BitVec 72
  dlvValid : Bit
  dlvLen   : BitVec 16
  stValid  : Bit
  stEvent  : BitVec 2
  stAction : BitVec 2
  stErr    : BitVec 3
  stMcause : BitVec 2
deriving DecidableEq, Repr

/-- The bytes of an acknowledgment as the word `A`, byte 0 in `A[71:64]` (R76). -/
def ackDataWord (a : List Byte) : BitVec 72 :=
  BitVec.ofNat 72 (a.foldl (fun n b => 256 * n + b.toNat) 0)

/-- The pins in the step that produces an output record; a pin group that is not valid reads 0 (R90). -/
def outPins (o : Out) : Pins where
  ackValid := o.ack.isSome
  ackData  := (o.ack.map ackDataWord).getD 0
  dlvValid := o.deliver.isSome
  dlvLen   := (o.deliver.map fun p => BitVec.ofNat 16 p.length).getD 0
  stValid  := o.status.isSome
  stEvent  := (o.status.map fun st => eventCode st.event).getD 0
  stAction := (o.status.map fun st => actionCode st.action).getD 0
  stErr    := (o.status.map fun st => errCode st.err).getD 0
  stMcause := (o.status.map fun st => mcauseCode st.mcause).getD 0

end Sys2Proof.Machine
end

