-- ==== Sys2Proof/Safety.lean ====
section
/-! DEFINITION. The terms claims use: runs of operations, the environment's observables, and the invariant of the block. -/

namespace Sys2Proof.Machine

/-! ## Runs -/

/-- The fold of `exec` over a finite list of operations (R256), with the output record of each step, oldest first. -/
def runExec : List Instr → State → Host.Outcome (State × List Out) Fault Refusal
  | [], s => .next (s, [])
  | i :: rest, s =>
    match exec i s with
    | .next t =>
      match runExec rest t with
      | .next (u, outs) => .next (u, t.out :: outs)
      | .fault r => .fault r
      | .refused r => .refused r
    | .fault r => .fault r
    | .refused r => .refused r

/-- The fold of `process` over a list of datagrams (R196), with the output record of each, oldest first. -/
def runDatagrams (cfg : Config.Cfg) : List RxView → State → State × List Out
  | [], s => (s, [])
  | rx :: rest, s =>
    let t := process cfg rx s
    let (u, outs) := runDatagrams cfg rest t
    (u, t.out :: outs)

/-- The byte an operation presents to the deserializer, if it is an RXB. -/
def presentedByte (i : Instr) : Option Byte :=
  match i with
  | .rxb b => some b
  | _ => none

/-- The bytes a list of operations presents, in order. -/
def presentedBytes (ops : List Instr) : List Byte := ops.filterMap presentedByte

/-- A list of RXBs with any NOPs among them: how the bytes of one datagram may be presented (R122, R196). -/
def BytesAndNops (ops : List Instr) : Prop := ∀ i ∈ ops, (∃ b, i = .rxb b) ∨ ∃ data, i = .nop data

/-- The bytes a presented thing brings to the deserializer as a whole datagram: a datagram's own, and none otherwise (R92). -/
def presentedDatagram (e : Enc) : List Byte :=
  match e with
  | .data d => d
  | .cmd _ => []
  | .ack _ => []
  | .fsm _ => []

/-- A datagram as RXVIEW shows it once all its bytes are presented (R122): overlong from 65548 bytes on. -/
def datagramView (d : List Byte) : RxView := if d.length ≤ Config.maxFrame then .bytes d else .overlong

/-! ## What the environment keeps (60_exceptions.md R229, R230; not state of the block, log 24) -/

/-- The output buffer: the delivered payloads, in step order, and nothing else (R229). -/
def outputBuffer (outs : List Out) : List Byte := (outs.filterMap Out.deliver).flatten

/-- The acknowledgments emitted, in step order, each its nine bytes (R18). -/
def acksSent (outs : List Out) : List (List Byte) := outs.filterMap Out.ack

/-- The bit an acknowledgment carries: its byte 4, 0x00 or 0x01 (R52, R76). -/
def ackBit (ack : List Byte) : Bit := extractSequenceBit ack

/-- The ACK trace: the sequence of bits of the acknowledgments emitted (R18). -/
def ackTrace (outs : List Out) : List Bit := (acksSent outs).map ackBit

/-- The datagrams of the units delivered, in step order, each beside its output. -/
def deliveredDatagrams (rxs : List RxView) (outs : List Out) : List RxView :=
  ((rxs.zip outs).filter fun p => p.2.deliver.isSome).map Prod.fst

/-- The sequence bit of a datagram, where it has one (R124, R126). -/
def sequenceBit (rx : RxView) : Option Bit := (decodeView rx).toOption.map Fields.seq

/-- How many of the outputs deliver a unit. -/
def deliveries (outs : List Out) : Nat := (outs.filterMap Out.deliver).length

/-- `countGood` (R230). Its width and its overflow are not decided in the spec (R230, D17, U18): that it counts in Nat, without
bound, is the model's choice (log 30). -/
def countGood (outs : List Out) : Nat :=
  (outs.filterMap Out.status).countP fun st => st.event = .allFine

/-- `countBad` (R230), its width and overflow likewise the model's choice (log 30). -/
def countBad (outs : List Out) : Nat :=
  (outs.filterMap Out.status).countP fun st => st.event ≠ .allFine

/-! ## The invariant -/

/-- The counter's range (R26). -/
def Inv.CountInRange (s : State) : Prop := s.rxcnt.toNat ≤ Config.rxcntSat

/-- The session state's reachable combinations (R32, R199). -/
def Inv.SessionLegal (s : State) : Prop :=
  (s.lav = false → s.state = .waitForZero ∧ s.lab = false) ∧ (s.lav = true → s.lab = !expectedBit s.state)

/-- The running register is the CRC of the covered bytes received so far (R25, R105). -/
def Inv.CrcTracks (s : State) : Prop := s.crc = crcRegister crcInit (coveredBytes s)

/-- Every cell of the payload received so far has been written (R39). -/
def Inv.PayloadWritten (s : State) : Prop :=
  ∀ a, a < min (s.rxcnt.toNat - Config.minFrame) Config.maxPayload → (memGet s.pbuf a).isSome = true

/-- What every step of the block keeps. -/
structure Inv (s : State) : Prop where
  countInRange   : Inv.CountInRange s
  memoryWf       : Memory.wf s.pbuf
  sessionLegal   : Inv.SessionLegal s
  crcTracks      : Inv.CrcTracks s
  payloadWritten : Inv.PayloadWritten s

/-- Between two datagrams: the state after any RST or RXE (R196). -/
def BetweenDatagrams (s : State) : Prop := s.rxcnt = 0 ∧ s.crc = crcInit

/-- The session state is the same, latched configuration included (00_scope.md Glossary). -/
def SameSession (s t : State) : Prop :=
  t.state = s.state ∧ t.lav = s.lav ∧ t.lab = s.lab ∧ t.cfgSrc = s.cfgSrc ∧ t.cfgDst = s.cfgDst

end Sys2Proof.Machine
end

