-- ==== Sys2Proof/Certificates/Slice0/Obligations.lean ====
section
/-! DEFINITION. What is claimed of the model, for the provers. Every docstring names the rules of spec/ a statement formalises;
where a clause is the model's own choice it names the log entry. -/

open Sys2Proof Sys2Proof.Machine

/-! ## Encodings (30_encoding.md) -/

/-- Every well-formed instruction is read back from its encoding, whatever its operands (R71, R72, R76, R80, R81, R89).
-/
def Obligations.DecodeOfEncodeIsIdentity : Prop :=
  ∀ i : Instr, WellFormed i → decode (encode i) = .ok i

/-- What the decoder accepts is the encoding of the well-formed instruction it answers, bit for bit. -/
def Obligations.EncodeOfDecodeIsIdentity : Prop :=
  ∀ (e : Enc) (i : Instr), decode e = .ok i → encode i = e ∧ WellFormed i

/-- R81: the command word by its masks, `rst` first; and `data` is ignored by every operation but RXB, `cmd` and `data`
by RST. -/
def Obligations.CommandWordSelectsByPriority : Prop :=
  (∀ c : BitVec 11,
    (c &&& 0x400 = 0x400 → ∃ cmd data, decode (.cmd c) = .ok (.rst cmd data)) ∧
    (c &&& 0x700 = 0x000 → ∃ data, decode (.cmd c) = .ok (.nop data)) ∧
    (c &&& 0x700 = 0x100 → decode (.cmd c) = .ok (.rxb (c.extractLsb' 0 8))) ∧
    (c &&& 0x700 = 0x200 → ∃ data, decode (.cmd c) = .ok (.rxe data)) ∧
    (c &&& 0x700 = 0x300 → ∃ data, decode (.cmd c) = .ok (.cmdRsvd data))) ∧
  (∀ (s : State) (cmd cmd' : BitVec 2) (data data' : Byte),
    exec (.rst cmd data) s = exec (.rst cmd' data') s ∧ exec (.nop data) s = exec (.nop data') s ∧
    exec (.rxe data) s = exec (.rxe data') s ∧ exec (.cmdRsvd data) s = exec (.cmdRsvd data') s)

/-- Words written out from the spec's encodings decode to what they stand for (R71, R74, R76, R77, R80, R81, R89). -/
def Obligations.SpecWordsDecode : Prop :=
  decode (.cmd 0b10000000000#11) = .ok (.rst 0 0) ∧ decode (.cmd 0b11111111111#11) = .ok (.rst 3 0xFF) ∧
  decode (.cmd 0b00010100101#11) = .ok (.nop 0xA5) ∧ decode (.cmd 0b00100011111#11) = .ok (.rxb 0x1F) ∧
  decode (.cmd 0b01011111111#11) = .ok (.rxe 0xFF) ∧ decode (.cmd 0b01100000001#11) = .ok (.cmdRsvd 1) ∧
  decode (.data [0x1F, 0x90, 0x23, 0x28, 0x00, 0x5A, 0x00, 0x02, 0x09, 0xF8, 0xFD, 0x96, 0x48, 0x69]) =
    .ok (.data0 0x1F90 0x2328 0x5A 2 0x09F8FD96 [0x48, 0x69]) ∧
  decode (.data [0x1F, 0x90, 0x23, 0x28, 0x01, 0x00, 0x00, 0x01, 0xC7, 0x48, 0x81, 0x0A, 0x21]) =
    .ok (.data1 0x1F90 0x2328 0x00 1 0xC748810A [0x21]) ∧
  decode (.ack 0x23281F900043FE4B4F#72) = .ok (.ack0 0x2328 0x1F90 0x43FE4B4F) ∧
  decode (.ack 0x23281F900134F97BD9#72) = .ok (.ack1 0x2328 0x1F90 0x34F97BD9) ∧
  decode (.fsm 0b000#3) = .ok .fsmZAllFine ∧ decode (.fsm 0b110#3) = .ok .fsmOWrongAlt ∧
  decode (.fsm 0b011#3) = .error .reservedEvent ∧ decode (.fsm 0b111#3) = .error .reservedEvent

/-- A table word that decodes is run by the next step once it is placed at the inputs (log 6, log 20). -/
def Obligations.PlacedTableWordIsExecuted : Prop :=
  ∀ (s : State) (nbits w : Nat) (i : Instr), decodeTableWord nbits w = some i →
    step (s.withFetchWord nbits w) = exec i (taken (s.withFetchWord nbits w))

/-- The ACK the framer builds is, as the word `A`, the encoding of the ACK instruction of its bit, with the port values
and the checksum of its first five bytes (R76, R77, R170). -/
def Obligations.BuiltAckIsEncodedAckWord : Prop :=
  ∀ (src dst : BitVec 16) (b : Bit),
    let c := crc32 (bytesBe16 src ++ bytesBe16 dst ++ [bitByte b])
    ackDataWord (buildAck isoHdlc src dst b) = ackWord src dst (bitByte b) c ∧
    decode (.ack (ackDataWord (buildAck isoHdlc src dst b))) = .ok (if b then .ack1 src dst c else .ack0 src dst c)

/-! ## The checksum (40_crc.md) -/

/-- The table-driven engine is equivalent, with the table's listed entries: the spec's own inference from R101 (its
R103, "[derived: from rule R101 ...]"). -/
def Obligations.TableDrivenCrcIsEquivalent : Prop :=
  (∀ (c : BitVec 32) (b : Byte), crcUpdate c b = crcUpdateByTable c b) ∧
  crcTableEntry 0 = 0x00000000 ∧ crcTableEntry 1 = 0x77073096 ∧ crcTableEntry 2 = 0xEE0E612C ∧
  crcTableEntry 3 = 0x990951BA ∧ crcTableEntry 128 = 0xEDB88320 ∧ crcTableEntry 255 = 0x2D02EF8D

/-- For a fixed byte `crc_update` is a bijection of the register (R101); and two bytes never update a register alike. -/
def Obligations.CrcUpdateIsBijective : Prop :=
  (∀ b : Byte, Function.Bijective fun c => crcUpdate c b) ∧ ∀ c : BitVec 32, Function.Injective fun b => crcUpdate c b

/-- The checksum values 40_crc.md lists in R101, R102 and R104. -/
def Obligations.ListedChecksumValues : Prop :=
  crcUpdate 0xFFFFFFFF 0x31 = 0x7C231048 ∧ crcFinal 0x340BC6D9 = 0xCBF43926 ∧ crc32 [] = 0 ∧ crc32 [0x00] = 0xD202EF8D ∧
  crc32 [0x00, 0x00, 0x00, 0x00, 0x00, 0x00, 0x00, 0x00] = 0x6522DF69 ∧ crc32 [0xFF, 0xFF, 0xFF, 0xFF] = 0xFFFFFFFF ∧
  crc32 [0x31, 0x32, 0x33, 0x34, 0x35, 0x36, 0x37, 0x38, 0x39] = 0xCBF43926

/-- The spec's own inference from R100, R101, R104 and R188 (its R105): after the bytes of a datagram of at most 65547
bytes the finalised register is the checksum of the covered bytes, offsets 8 to 11 left out, and
`compute_checksum(header, payload)` when the size is 12 + LEN. -/
def Obligations.StreamingChecksumEqualsBatch : Prop :=
  ∀ (s : State) (d : List Byte), BetweenDatagrams s → d.length ≤ 65547 →
    ∃ t outs, runExec (d.map .rxb) s = .next (t, outs) ∧ crcFinal t.crc = crc32 (d.take 8 ++ d.drop 12) ∧
      (d.length = 12 + t.lenView.toNat →
        crcFinal t.crc = computeChecksum isoHdlc (d.take 8) ((d.drop 12).take t.lenView.toNat))

/-- What the source asks of the checksum, and the spec infers of CRC-32 (its R108): flipping any one bit of a datagram
that is not corrupt makes it corrupt, and which test finds it: the length field, seven bits of the sequence byte, or the
checksum. -/
def Obligations.EverySingleBitFlipIsDetected : Prop :=
  ∀ d : List Byte, isCorrupt isoHdlc (.bytes d) = false → ∀ k, k < 8 * d.length →
    isCorrupt isoHdlc (.bytes (flipBit k d)) = true ∧
    ∀ e, classify isoHdlc (.bytes (flipBit k d)) e =
      if k / 8 = 6 ∨ k / 8 = 7 then ⟨.isCorrupt, .malformed, some .length, none⟩
      else if k / 8 = 4 ∧ k % 8 ≠ 0 then ⟨.isCorrupt, .malformed, some .seqRange, none⟩
      else ⟨.isCorrupt, .checksumMismatch, none, none⟩

/-! ## The parser and deserializer (41_parser.md) -/

/-- R124: `decode`, its three tests in order, the fields it returns, and that its failure is the event IsCorrupt. -/
def Obligations.DecodeTestsStructureInOrder : Prop :=
  ∀ d : List Byte,
    (d.length < 12 → decodeFields d = .error .short) ∧
    (∀ h : 12 ≤ d.length,
      let len := be16 d[6] d[7]
      (d.length ≠ 12 + len.toNat → decodeFields d = .error .length) ∧
      (d.length = 12 + len.toNat → 1 < d[4].toNat → decodeFields d = .error .seqRange) ∧
      (d.length = 12 + len.toNat → d[4].toNat ≤ 1 →
        decodeFields d = .ok { header := d.take 8, src := be16 d[0] d[1], dst := be16 d[2] d[3], seq := decide (d[4] = 1),
                               flag := d[5], len := len, claimed := be32 d[8] d[9] d[10] d[11],
                               payload := (d.drop 12).take len.toNat })) ∧
    (∀ c cfg e, decodeFields d = .error c → (classify cfg (.bytes d) e).event = .isCorrupt)

/-- R218: exactly one error is reported, the first in the order SHORT, LENGTH, SEQ_RANGE, CHECKSUM_MISMATCH,
SEQUENCE_MISMATCH, for every checksum function. -/
def Obligations.FirstErrorInOrderIsReported : Prop :=
  ∀ (cfg : Config.Cfg) (d : List Byte) (e : Bit),
    let v := classify cfg (.bytes d) e
    if d.length < 12 then v.err = .malformed ∧ v.mcause = some .short
    else if d.length ≠ 12 + (be16 (d.getD 6 0) (d.getD 7 0)).toNat then v.err = .malformed ∧ v.mcause = some .length
    else if 1 < (d.getD 4 0).toNat then v.err = .malformed ∧ v.mcause = some .seqRange
    else if cfg.crc (d.take 8 ++ d.drop 12) ≠ be32 (d.getD 8 0) (d.getD 9 0) (d.getD 10 0) (d.getD 11 0) then
      v.err = .checksumMismatch ∧ v.mcause = none
    else if d.getD 4 0 ≠ bitByte e then v.err = .sequenceMismatch ∧ v.mcause = none
    else v.err = .noError ∧ v.mcause = none

/-- The source's round trip, as the spec infers it from R124, R129 and R93 (its R134): an honest datagram decodes to
exactly its field values and payload and is not corrupt, for every checksum function. -/
def Obligations.HonestDatagramRoundTrips : Prop :=
  ∀ (cfg : Config.Cfg) (src dst : BitVec 16) (seq : Bit) (flag : Byte) (p : List Byte), p.length ≤ 65535 →
    let d := encodeData cfg src dst (bitByte seq) flag p
    (∃ r, decodeFields d = .ok r ∧ r.src = src ∧ r.dst = dst ∧ r.seq = seq ∧ r.flag = flag ∧ r.len.toNat = p.length ∧
      r.claimed = computeChecksum cfg r.header p ∧ r.payload = p) ∧
    isCorrupt cfg (.bytes d) = false

/-- The spec's own inference from R120, R121 and R188 (its R122): the deserializer loses, reorders and alters no byte,
with any NOPs among the bytes; from 65548 bytes on the view is Overlong. -/
def Obligations.DeserializerKeepsEveryByte : Prop :=
  ∀ (s : State) (ops : List Instr), s.rxcnt = 0 → BytesAndNops ops →
    ∃ t outs, runExec ops s = .next (t, outs) ∧
      ((presentedBytes ops).length ≤ 65547 → rxView t = .bytes (presentedBytes ops)) ∧
      (65548 ≤ (presentedBytes ops).length → rxView t = .overlong)

/-- An overlong datagram is MALFORMED with cause LENGTH, from any state between datagrams: the spec's own inferences R125 and
R133 (g). That the whole datagram is taken in one step is the model's reading, log 12 and log 13. -/
def Obligations.OverlongDatagramIsLengthError : Prop :=
  ∀ (s : State) (d : List Byte) (rest : List Input), BetweenDatagrams s → 65548 ≤ d.length →
    s.inputs = .datagram d :: rest →
    ∃ t, step s = .next t ∧ t.out = ⟨none, none, some ⟨.isCorrupt, .ignore, .malformed, some .length⟩⟩ ∧ SameSession s t

/-! ## The port operations (44_port_operations.md) -/

/-- R186: what RST leaves, from any state; two RSTs in a row equal one; and nothing else takes LAV back to 0. -/
def Obligations.ResetBeginsASession : Prop :=
  (∀ (s t : State) (i : Instr), exec i s = .next t → (∀ cmd data, i ≠ .rst cmd data) → s.lav = true → t.lav = true) ∧
  ∀ (s : State) (cmd : BitVec 2) (data : Byte),
    ∃ t, exec (.rst cmd data) s = .next t ∧
      t.state = .waitForZero ∧ t.lav = false ∧ t.lab = false ∧ t.cfgSrc = s.ackSrcPort ∧ t.cfgDst = s.ackDstPort ∧
      t.rxcnt = 0 ∧ t.crc = 0xFFFFFFFF ∧ t.out = Out.none ∧
      t.ackSrcPort = s.ackSrcPort ∧ t.ackDstPort = s.ackDstPort ∧ t.inputs = s.inputs ∧
      ∃ u, exec (.rst cmd data) t = .next u ∧ SameSession t u ∧ u.rxcnt = t.rxcnt ∧ u.crc = t.crc ∧ u.out = t.out

/-- R187: NOP changes nothing and outputs nothing, and has no effect on what any later operation does. -/
def Obligations.NopChangesNothing : Prop :=
  ∀ (s : State) (data : Byte),
    ∃ t, exec (.nop data) s = .next t ∧ t = { s with out := Out.none, fsmOut := none } ∧ ∀ i, exec i t = exec i s

/-- R188: RXB stores its byte by the counter, folds it into the CRC at the covered offsets, advances the counter,
outputs nothing and touches nothing else: every register and every cell of PBUF. -/
def Obligations.RxbStoresByCounter : Prop :=
  ∀ (s : State) (b : Byte),
    let k := s.rxcnt.toNat
    ∃ t, exec (.rxb b) s = .next t ∧
      (∀ i : Fin 8, t.hdr[i] = if k = i.val then b else s.hdr[i]) ∧
      (∀ i : Fin 4, t.csum[i] = if k = i.val + 8 then b else s.csum[i]) ∧
      (∀ a, readPbuf t a = if k = a + 12 ∧ k ≤ 65546 then b else readPbuf s a) ∧
      t.crc = (if k < 8 ∨ 12 ≤ k ∧ k ≤ 65546 then crcUpdate s.crc b else s.crc) ∧
      t.rxcnt.toNat = min (k + 1) 65548 ∧ t.out = Out.none ∧ t.fsmOut = none ∧ SameSession s t ∧
      t.ackSrcPort = s.ackSrcPort ∧ t.ackDstPort = s.ackDstPort ∧ t.inputs = s.inputs ∧ t.resets = s.resets

/-- R189: in a state of the invariant RXE is `process` on the received view, with the checksum recomputed from the
datagram, then the counter and the CRC cleared. The running register has made the same judgement (R105, R106; log 10).
-/
def Obligations.RxeIsProcessOnReceivedView : Prop :=
  ∀ (s : State) (data : Byte), Inv s →
    exec (.rxe data) s = .next { process isoHdlc (rxView s) s with rxcnt := 0, crc := crcInit }

/-- RXE completes from every state, reports a status, clears the counter and the CRC, and leaves the other scratch
registers, PBUF, the latched ports, the inputs and the pins alone (R27, R54, R189). -/
def Obligations.RxeCompletesWithItsFrame : Prop :=
  ∀ (s : State) (data : Byte),
    ∃ t, exec (.rxe data) s = .next t ∧ t.out.status.isSome = true ∧ t.rxcnt = 0 ∧ t.crc = crcInit ∧ t.hdr = s.hdr ∧
      t.csum = s.csum ∧ t.pbuf = s.pbuf ∧ (∀ a, readPbuf t a = readPbuf s a) ∧ t.cfgSrc = s.cfgSrc ∧ t.cfgDst = s.cfgDst ∧
      t.ackSrcPort = s.ackSrcPort ∧ t.ackDstPort = s.ackDstPort ∧ t.inputs = s.inputs ∧ t.resets = s.resets

/-- CMD_RSVD acts as NOP (R193's pseudocode). That the model runs it at all is its own choice: log 9. -/
def Obligations.ReservedCommandActsAsNop : Prop :=
  ∀ (s : State) (data data' : Byte),
    exec (.cmdRsvd data) s = exec (.nop data') s ∧
    exec (.cmdRsvd data) s = .next { s with out := Out.none, fsmOut := none }

/-- The spec's own inference from R186, R187 and R189 (its R27): RXCNT returns to 0 at RXE, whatever the outcome, and at
RST; NOP leaves it unchanged. -/
def Obligations.CounterReturnsToZero : Prop :=
  ∀ (s t : State) (cmd : BitVec 2) (data : Byte),
    (exec (.rxe data) s = .next t → t.rxcnt = 0) ∧ (exec (.rst cmd data) s = .next t → t.rxcnt = 0) ∧
    (exec (.nop data) s = .next t → t.rxcnt = s.rxcnt)

/-- The shape of the outputs of the port operations, the spec's own inference from R186 to R190 (its R194). -/
def Obligations.OutputShape : Prop :=
  (∀ (s t : State) (i : Instr),
    ((∃ cmd data, i = .rst cmd data) ∨ (∃ data, i = .nop data) ∨ (∃ b, i = .rxb b)) → exec i s = .next t →
      t.out = Out.none) ∧
  (∀ (s t : State) (data : Byte), exec (.rxe data) s = .next t →
    ∃ st, t.out.status = some st ∧
      (t.out.deliver.isSome = true ↔ st.action = .deliver) ∧ (st.action = .deliver ↔ st.event = .allFine) ∧
      (t.out.deliver.isSome = true → t.out.ack.isSome = true) ∧
      (t.out.ack.isSome = true ↔ st.action = .deliver ∨ st.action = .resend ∧ s.lav = true) ∧
      (st.event = .isCorrupt → t.out.ack = none ∧ t.out.deliver = none) ∧
      (st.err = .noError ↔ st.event = .allFine) ∧
      (st.err = .malformed ∨ st.err = .checksumMismatch ↔ st.event = .isCorrupt) ∧
      (st.err = .sequenceMismatch ↔ st.event = .wrongAlternating) ∧
      (st.mcause.isSome = true ↔ st.err = .malformed))

/-- A delivered payload has the length the pins report (R90: dlv_len). -/
def Obligations.DeliveredLengthIsOnThePins : Prop :=
  ∀ (s t : State) (data : Byte) (p : List Byte), exec (.rxe data) s = .next t → t.out.deliver = some p →
    (outPins t.out).dlvValid = true ∧ p.length = (outPins t.out).dlvLen.toNat

/-- R84 to R88: the code values, the codes never produced, and the cause pins of an error that is not MALFORMED. -/
def Obligations.CodeValuesAreTheSpecs : Prop :=
  (stateCode .waitForZero = 0 ∧ stateCode .waitForOne = 1 ∧ ∀ st, (stateCode st = 1 ↔ expectedBit st = true)) ∧
  (eventCode .allFine = 0b00 ∧ eventCode .isCorrupt = 0b01 ∧ eventCode .wrongAlternating = 0b10 ∧ ∀ ev, eventCode ev ≠ 0b11) ∧
  (actionCode .ignore = 0b00 ∧ actionCode .deliver = 0b01 ∧ actionCode .resend = 0b10 ∧ ∀ a, actionCode a ≠ 0b11) ∧
  (errCode .noError = 0b000 ∧ errCode .malformed = 0b001 ∧ errCode .checksumMismatch = 0b010 ∧
    errCode .sequenceMismatch = 0b011 ∧ ∀ e, errCode e ≠ 0b100 ∧ errCode e ≠ 0b101 ∧ errCode e ≠ 0b110 ∧ errCode e ≠ 0b111) ∧
  (mcauseCode (some .short) = 0b00 ∧ mcauseCode (some .length) = 0b01 ∧ mcauseCode (some .seqRange) = 0b10 ∧
    ∀ c, mcauseCode c ≠ 0b11) ∧
  ∀ (s t : State) (data : Byte) (st : Status), exec (.rxe data) s = .next t → t.out.status = some st →
    st.err ≠ .malformed → st.mcause = none ∧ (outPins t.out).stMcause = 0b00

/-- R90: the three strobes, what the pins read when nothing is produced, the status codes, and in the step of an RXE the ACK as
the word `A` of the latched ports and the delivery as the window PBUF[0..dlv_len). The pins are a function of the output record
by the model's choice, log 28. -/
def Obligations.OutputPinsShowTheOutputs : Prop :=
  (∀ o : Out,
    ((outPins o).ackValid = true ↔ ∃ a, o.ack = some a) ∧ ((outPins o).dlvValid = true ↔ ∃ p, o.deliver = some p) ∧
    ((outPins o).stValid = true ↔ ∃ st, o.status = some st) ∧
    (o.ack = none → (outPins o).ackData = 0) ∧ (o.deliver = none → (outPins o).dlvLen = 0) ∧
    (o.status = none → (outPins o).stEvent = 0 ∧ (outPins o).stAction = 0 ∧ (outPins o).stErr = 0 ∧ (outPins o).stMcause = 0) ∧
    (∀ st, o.status = some st → (outPins o).stEvent = eventCode st.event ∧ (outPins o).stAction = actionCode st.action ∧
      (outPins o).stErr = errCode st.err ∧ (outPins o).stMcause = mcauseCode st.mcause)) ∧
  (∀ (s t : State) (data : Byte), exec (.rxe data) s = .next t →
    (∀ a, t.out.ack = some a → wordBytes 9 (outPins t.out).ackData = a ∧ (outPins t.out).ackData =
      ackWord s.cfgSrc s.cfgDst (bitByte (ackBit a)) (crc32 (bytesBe16 s.cfgSrc ++ bytesBe16 s.cfgDst ++ [bitByte (ackBit a)]))) ∧
    (∀ p, t.out.deliver = some p → p = memRead t 0 (outPins t.out).dlvLen.toNat ∧ p = deliveryWindow t))

/-! ## Datagrams (44_port_operations.md R190 to R199) -/

/-- The spec's own inference that the two levels agree (its R196): presenting a datagram's bytes, any NOPs among them,
and RXE is `process` on the whole datagram: no output before the last, then its output and its session state, and the
block is between datagrams again. -/
def Obligations.PresentedDatagramIsProcessed : Prop :=
  ∀ (s : State) (ops : List Instr) (data : Byte), BetweenDatagrams s → BytesAndNops ops →
    let p := process isoHdlc (datagramView (presentedBytes ops)) s
    ∃ t outs, runExec (ops ++ [.rxe data]) s = .next (t, outs ++ [p.out]) ∧ outs.length = ops.length ∧
      (∀ o ∈ outs, o = Out.none) ∧ SameSession p t ∧ BetweenDatagrams t

/-- DATA0 and DATA1 as single steps are `process` on their bytes, between datagrams (R92, R196; log 12). -/
def Obligations.DataInstructionsAreProcessed : Prop :=
  ∀ (s : State) (src dst : BitVec 16) (flag : Byte) (len : BitVec 16) (csum : BitVec 32) (p : List Byte),
    BetweenDatagrams s → p.length = len.toNat →
    (let q := process isoHdlc (.bytes (dataPrefix src dst 0 flag len csum ++ p)) s
     ∃ t, exec (.data0 src dst flag len csum p) s = .next t ∧ t.out = q.out ∧ SameSession q t ∧ BetweenDatagrams t) ∧
    (let q := process isoHdlc (.bytes (dataPrefix src dst 1 flag len csum ++ p)) s
     ∃ t, exec (.data1 src dst flag len csum p) s = .next t ∧ t.out = q.out ∧ SameSession q t ∧ BetweenDatagrams t)

/-- The spec's own inference from R190, R152 and R157 (its R191), for DATA0 as one step (log 12): a well-formed,
checksum-valid DATA0 in each FSM state, between datagrams, in a legal session. -/
def Obligations.Data0Outcome : Prop :=
  ∀ (s : State) (src dst : BitVec 16) (flag : Byte) (len : BitVec 16) (csum : BitVec 32) (p : List Byte),
    BetweenDatagrams s → Inv.SessionLegal s → p.length = len.toNat →
    csum = computeChecksum isoHdlc (bytesBe16 src ++ bytesBe16 dst ++ [0, flag] ++ bytesBe16 len) p →
    ∃ t, exec (.data0 src dst flag len csum p) s = .next t ∧
      (s.state = .waitForZero →
        t.out = ⟨some (sessionAck isoHdlc s false), some p, some ⟨.allFine, .deliver, .noError, none⟩⟩ ∧
        t.state = .waitForOne ∧ t.lav = true ∧ t.lab = false) ∧
      (s.state = .waitForOne →
        t.out = ⟨some (sessionAck isoHdlc s false), none, some ⟨.wrongAlternating, .resend, .sequenceMismatch, none⟩⟩ ∧
        SameSession s t ∧ s.lav = true ∧ s.lab = false)

/-- The spec's own inference from R190, R153 and R156 (its R192), for DATA1 as one step (log 12): a well-formed,
checksum-valid DATA1 in each FSM state, between datagrams, in a legal session. -/
def Obligations.Data1Outcome : Prop :=
  ∀ (s : State) (src dst : BitVec 16) (flag : Byte) (len : BitVec 16) (csum : BitVec 32) (p : List Byte),
    BetweenDatagrams s → Inv.SessionLegal s → p.length = len.toNat →
    csum = computeChecksum isoHdlc (bytesBe16 src ++ bytesBe16 dst ++ [1, flag] ++ bytesBe16 len) p →
    ∃ t, exec (.data1 src dst flag len csum p) s = .next t ∧
      (s.state = .waitForOne →
        t.out = ⟨some (sessionAck isoHdlc s true), some p, some ⟨.allFine, .deliver, .noError, none⟩⟩ ∧
        t.state = .waitForZero ∧ t.lav = true ∧ t.lab = true) ∧
      (s.state = .waitForZero →
        t.out = ⟨if s.lav then some (sessionAck isoHdlc s true) else none, none,
                 some ⟨.wrongAlternating, .resend, .sequenceMismatch, none⟩⟩ ∧
        SameSession s t ∧ (s.lav = true → s.lab = true))

/-- DATA0 and DATA1 complete from every state, with any checksum, length field and payload; they touch the scratch registers,
the cells of PBUF their bytes go to, and the session state, and nothing else; and they leave the block between datagrams (R53,
R78, R188, R189). That they are one step, and in the middle of a datagram continue it, is the model's reading, log 12. -/
def Obligations.DataInstructionsCompleteWithTheirFrame : Prop :=
  ∀ (s : State) (i : Instr) (p : List Byte),
    ((∃ src dst flag len csum, i = .data0 src dst flag len csum p) ∨ ∃ src dst flag len csum, i = .data1 src dst flag len csum p) →
    ∃ t, exec i s = .next t ∧ t.out.status.isSome = true ∧ BetweenDatagrams t ∧
      (∀ a, a + 12 < s.rxcnt.toNat ∨ s.rxcnt.toNat + 12 + p.length ≤ a + 12 → readPbuf t a = readPbuf s a) ∧
      t.cfgSrc = s.cfgSrc ∧ t.cfgDst = s.cfgDst ∧ t.ackSrcPort = s.ackSrcPort ∧ t.ackDstPort = s.ackDstPort ∧
      t.inputs = s.inputs ∧ t.resets = s.resets

/-- What a well-formed DATA0 or DATA1 leaves in the scratch registers and in PBUF, between datagrams: payload byte `a` lies at
address `a`, every other cell reads as before (R23, R24, R51, R53; Program 5's end state). That a whole datagram is one step is
the model's reading, log 12. -/
def Obligations.DatagramBytesLieWhereTheMapSays : Prop :=
  ∀ (s : State) (i : Instr) (src dst : BitVec 16) (seq flag : Byte) (len : BitVec 16) (csum : BitVec 32) (p : List Byte),
    BetweenDatagrams s → p.length = len.toNat →
    (i = .data0 src dst flag len csum p ∧ seq = 0 ∨ i = .data1 src dst flag len csum p ∧ seq = 1) →
    ∃ t, exec i s = .next t ∧
      t.hdr.toList = bytesBe16 src ++ bytesBe16 dst ++ [seq, flag] ++ bytesBe16 len ∧ t.csum.toList = bytesBe32 csum ∧
      t.srcView = src ∧ t.dstView = dst ∧ t.seqView = seq ∧ t.flagView = flag ∧ t.lenView = len ∧ t.claimedView = csum ∧
      ∀ a, readPbuf t a = if h : a < p.length then p[a] else readPbuf s a

/-- R78: every byte string that is not a legal data datagram, received between datagrams and ended, gives IsCorrupt with the
first condition of the table that holds, no ACK, no delivery and no change of session state. -/
def Obligations.IllegalDatagramsAreCorrupt : Prop :=
  ∀ (s : State) (d : List Byte) (data : Byte), BetweenDatagrams s → isCorrupt isoHdlc (.bytes d) = true →
    ∃ t outs st, runExec (d.map .rxb ++ [.rxe data]) s = .next (t, outs ++ [⟨none, none, some st⟩]) ∧
      (∀ o ∈ outs, o = Out.none) ∧ st.event = .isCorrupt ∧ SameSession s t ∧
      (if d.length < 12 then st.err = .malformed ∧ st.mcause = some .short
       else if d.length ≠ 12 + (be16 (d.getD 6 0) (d.getD 7 0)).toNat then st.err = .malformed ∧ st.mcause = some .length
       else if 1 < (d.getD 4 0).toNat then st.err = .malformed ∧ st.mcause = some .seqRange
       else st.err = .checksumMismatch ∧ st.mcause = none)

/-- Presented whole, a datagram that is no encoding of DATA0 or DATA1 is received and judged in one step, as RXB of each byte
and RXE would (R78, R92, R196; log 12, log 13). -/
def Obligations.UndecodableDatagramIsReceivedWhole : Prop :=
  ∀ (s : State) (d : List Byte) (c : MCause) (rest : List Input), s.inputs = .datagram d :: rest →
    decode (.data d) = .error (.malformed c) →
    ∃ t outs, step s = .next t ∧ runExec (rxdInstrs d) { s with inputs := rest } = .next (t, outs)

/-- An ACK datagram arriving at the receiver's input is MALFORMED/SHORT: the spec's own inference from R78 (in its R79). That
its nine bytes are taken in one step is the model's reading, log 12 and log 13. -/
def Obligations.AckAtTheInputIsShort : Prop :=
  ∀ (s : State) (src dst : BitVec 16) (b : Bit) (rest : List Input), BetweenDatagrams s →
    s.inputs = .datagram (buildAck isoHdlc src dst b) :: rest →
    ∃ t, step s = .next t ∧ t.out = ⟨none, none, some ⟨.isCorrupt, .ignore, .malformed, some .short⟩⟩ ∧ SameSession s t ∧
      t.inputs = rest

/-- The spec's own inference (the last sentence of its R39): what HDR, CSUM and PBUF hold after a reset or an earlier datagram
influences no output. Two blocks between datagrams with the same session and ports give the same outputs for every list of
operations. -/
def Obligations.OldScratchInfluencesNoOutput : Prop :=
  ∀ (s s' : State) (ops : List Instr), BetweenDatagrams s → BetweenDatagrams s' → SameSession s s' →
    s'.ackSrcPort = s.ackSrcPort → s'.ackDstPort = s.ackDstPort →
    ∃ t t' outs, runExec ops s = .next (t, outs) ∧ runExec ops s' = .next (t', outs) ∧ SameSession t t'

/-! ## The FSM (42_fsm.md) -/

/-- R151: `execute` is total on the six pairs and is the parametric table. -/
def Obligations.ExecuteIsTheTransitionTable : Prop :=
  ∀ st : FsmState, execute st .allFine = ⟨.deliver, flipState st⟩ ∧ execute st .isCorrupt = ⟨.ignore, st⟩ ∧
    execute st .wrongAlternating = ⟨.resend, st⟩

/-- FSM_Z_ALLFINE and FSM_O_ALLFINE where the FSM reads them, in the state the word names with a valid datagram of the awaited
bit received: Deliver and the other state, the payload of what was received, the ACK of the old expected bit, and the rest of
that RXE step (R152, R153, R158, R176, R189). Elsewhere only `execute`'s answer shows: that, and that the word is an operation
at all, are the model's choices, log 15. -/
def Obligations.AllFineWordsDeliver : Prop :=
  ∀ s : State,
    (s.state = .waitForZero → receivedEvent s = .allFine → ∃ r, decodeView (rxView s) = .ok r ∧
      exec .fsmZAllFine s = .next { s with
        state := .waitForOne, lav := true, lab := false, rxcnt := 0, crc := crcInit,
        fsmOut := some ⟨.deliver, .waitForOne⟩,
        out := ⟨some (buildAck isoHdlc s.cfgSrc s.cfgDst false), some r.payload, some ⟨.allFine, .deliver, .noError, none⟩⟩ }) ∧
    (s.state = .waitForOne → receivedEvent s = .allFine → ∃ r, decodeView (rxView s) = .ok r ∧
      exec .fsmOAllFine s = .next { s with
        state := .waitForZero, lav := true, lab := true, rxcnt := 0, crc := crcInit,
        fsmOut := some ⟨.deliver, .waitForZero⟩,
        out := ⟨some (buildAck isoHdlc s.cfgSrc s.cfgDst true), some r.payload, some ⟨.allFine, .deliver, .noError, none⟩⟩ }) ∧
    (¬ (s.state = .waitForZero ∧ receivedEvent s = .allFine) →
      exec .fsmZAllFine s = .next { s with out := Out.none, fsmOut := some ⟨.deliver, .waitForOne⟩ }) ∧
    (¬ (s.state = .waitForOne ∧ receivedEvent s = .allFine) →
      exec .fsmOAllFine s = .next { s with out := Out.none, fsmOut := some ⟨.deliver, .waitForZero⟩ })

/-- FSM_Z_ISCORRUPT and FSM_O_ISCORRUPT where the FSM reads them, in the state the word names with a corrupt datagram received:
Ignore and the same state, nothing is emitted, and of the rest of that RXE step only the status and the cleared counter and CRC
(R154, R155, R178, R189). Elsewhere only `execute`'s answer shows: that, and that the word is an operation at all, are the
model's choices, log 15. -/
def Obligations.IsCorruptWordsDoNothing : Prop :=
  ∀ s : State,
    (s.state = .waitForZero → receivedEvent s = .isCorrupt → ∃ st, st.event = .isCorrupt ∧ st.action = .ignore ∧
      exec .fsmZIsCorrupt s = .next { s with
        rxcnt := 0, crc := crcInit, fsmOut := some ⟨.ignore, .waitForZero⟩, out := ⟨none, none, some st⟩ }) ∧
    (s.state = .waitForOne → receivedEvent s = .isCorrupt → ∃ st, st.event = .isCorrupt ∧ st.action = .ignore ∧
      exec .fsmOIsCorrupt s = .next { s with
        rxcnt := 0, crc := crcInit, fsmOut := some ⟨.ignore, .waitForOne⟩, out := ⟨none, none, some st⟩ }) ∧
    (¬ (s.state = .waitForZero ∧ receivedEvent s = .isCorrupt) →
      exec .fsmZIsCorrupt s = .next { s with out := Out.none, fsmOut := some ⟨.ignore, .waitForZero⟩ }) ∧
    (¬ (s.state = .waitForOne ∧ receivedEvent s = .isCorrupt) →
      exec .fsmOIsCorrupt s = .next { s with out := Out.none, fsmOut := some ⟨.ignore, .waitForOne⟩ })

/-- FSM_Z_WRONGALT and FSM_O_WRONGALT where the FSM reads them, in the state the word names with a valid datagram of the other
bit received: Resend and the same state, the last ACK again if there is one, nothing delivered, and the rest of that RXE step
(R156, R157, R177, R189). Elsewhere only `execute`'s answer shows: that, and that the word is an operation at all, are the
model's choices, log 15. -/
def Obligations.WrongAlternatingWordsResend : Prop :=
  ∀ s : State,
    let ack := if s.lav then some (buildAck isoHdlc s.cfgSrc s.cfgDst s.lab) else none
    (s.state = .waitForZero → receivedEvent s = .wrongAlternating →
      exec .fsmZWrongAlt s = .next { s with
        rxcnt := 0, crc := crcInit, fsmOut := some ⟨.resend, .waitForZero⟩,
        out := ⟨ack, none, some ⟨.wrongAlternating, .resend, .sequenceMismatch, none⟩⟩ }) ∧
    (s.state = .waitForOne → receivedEvent s = .wrongAlternating →
      exec .fsmOWrongAlt s = .next { s with
        rxcnt := 0, crc := crcInit, fsmOut := some ⟨.resend, .waitForOne⟩,
        out := ⟨ack, none, some ⟨.wrongAlternating, .resend, .sequenceMismatch, none⟩⟩ }) ∧
    (¬ (s.state = .waitForZero ∧ receivedEvent s = .wrongAlternating) →
      exec .fsmZWrongAlt s = .next { s with out := Out.none, fsmOut := some ⟨.resend, .waitForZero⟩ }) ∧
    (¬ (s.state = .waitForOne ∧ receivedEvent s = .wrongAlternating) →
      exec .fsmOWrongAlt s = .next { s with out := Out.none, fsmOut := some ⟨.resend, .waitForOne⟩ })

/-- The impossible event code acts as IsCorrupt at the FSM in either state: no action, state kept (R165; that it can be
presented at all is the model's choice, log 17). -/
def Obligations.ReservedEventActsAsIsCorrupt : Prop :=
  ∀ (s : State) (rest : List Input), s.inputs = .event 3 :: rest →
    step s = .next { s with inputs := rest, out := Out.none, fsmOut := some ⟨.ignore, s.state⟩ }

/-- R161 and R176: an AllFine datagram flips the state, is acknowledged with the bit the machine was waiting for, and
that ACK becomes the last one. -/
def Obligations.AllFineFlipsAndAcknowledges : Prop :=
  ∀ (s t : State) (data : Byte) (st : Status), exec (.rxe data) s = .next t → t.out.status = some st → st.event = .allFine →
    (s.state = .waitForZero → t.state = .waitForOne ∧
      t.out.ack = some (buildAck isoHdlc s.cfgSrc s.cfgDst false) ∧ t.lav = true ∧ t.lab = false) ∧
    (s.state = .waitForOne → t.state = .waitForZero ∧
      t.out.ack = some (buildAck isoHdlc s.cfgSrc s.cfgDst true) ∧ t.lav = true ∧ t.lab = true)

/-- R162: IsCorrupt never changes the session state and never sends or delivers anything. -/
def Obligations.IsCorruptNeverMutatesSession : Prop :=
  ∀ (s t : State) (data : Byte) (st : Status), exec (.rxe data) s = .next t → t.out.status = some st →
    st.event = .isCorrupt → SameSession s t ∧ t.out.ack = none ∧ t.out.deliver = none

/-- R177's pseudocode, and with R32 which ACK it is: WrongAlternating emits the last ACK sent, if there is one, and
changes neither the session state nor what that last ACK is; in a legal session that ACK is the one of the complement of
the expected bit. -/
def Obligations.WrongAlternatingResendsLastAck : Prop :=
  ∀ (s t : State) (data : Byte) (st : Status), exec (.rxe data) s = .next t → t.out.status = some st →
    st.event = .wrongAlternating →
    SameSession s t ∧ st.action = .resend ∧ st.err = .sequenceMismatch ∧ t.out.deliver = none ∧
    (s.lav = true → t.out.ack = some (buildAck isoHdlc s.cfgSrc s.cfgDst s.lab)) ∧
    (s.lav = false → t.out.ack = none) ∧
    (Inv.SessionLegal s → s.lav = true →
      t.out.ack = some (buildAck isoHdlc s.cfgSrc s.cfgDst (!expectedBit s.state)))

/-- The spec's own inference from R152 to R157 (its R163): only AllFine changes the session state; from WaitForZero,
over any datagrams and for every checksum function, STATE is the parity of the units delivered, the sequence bits of the
delivered units alternate 0, 1, 0, 1, ..., and so do the bits of their ACKs. -/
def Obligations.DeliveredUnitsAlternate : Prop :=
  (∀ (cfg : Config.Cfg) (rx : RxView) (s : State) (st : Status), (process cfg rx s).out.status = some st →
    st.event ≠ .allFine → SameSession s (process cfg rx s)) ∧
  (∀ (cfg : Config.Cfg) (rxs : List RxView) (s : State), s.state = .waitForZero →
    let outs := (runDatagrams cfg rxs s).2
    (runDatagrams cfg rxs s).1.state = stateOfBit (deliveries outs % 2 == 1) ∧
    (deliveredDatagrams rxs outs).map sequenceBit = (List.range (deliveries outs)).map (fun k => some (k % 2 == 1)) ∧
    (outs.filter fun o => o.deliver.isSome).map Out.ack =
      (List.range (deliveries outs)).map (fun k => some (sessionAck cfg s (k % 2 == 1))) ∧
    ackTrace (outs.filter fun o => o.deliver.isSome) = (List.range (deliveries outs)).map fun k => k % 2 == 1)

/-- A unit is not delivered twice: presented again at once, an accepted datagram is WrongAlternating, the same ACK is
sent again, nothing is appended and the session state stays (R157, R159, S4; Scenario B). -/
def Obligations.DuplicateIsReacknowledgedNotRedelivered : Prop :=
  ∀ (cfg : Config.Cfg) (rx : RxView) (s : State),
    let t := process cfg rx s
    let u := process cfg rx t
    t.out.deliver.isSome = true →
      u.out.deliver = none ∧ u.out.ack = t.out.ack ∧ u.out.ack.isSome = true ∧
      u.out.status = some ⟨.wrongAlternating, .resend, .sequenceMismatch, none⟩ ∧ SameSession t u ∧
      outputBuffer [t.out, u.out] = outputBuffer [t.out] ∧
      ackTrace [t.out, u.out] = [expectedBit s.state, expectedBit s.state]

/-! ## The ACK framer (43_ack_framer.md) -/

/-- ACK0 and ACK1: in the RXE step that acknowledges the bit (a valid datagram of the awaited bit received in the state that
awaits it, or one of the other bit with that ACK the last one sent) the framer emits build_ack of the bit for the latched ports,
and the step is RXE's (R170, R171, R172, R175, R176, R177). Elsewhere nothing is emitted and nothing changes (R179): that, and
that the word is an operation whose fields are not read, are the model's choices, log 14. -/
def Obligations.AckWordsEmitBuildAck : Prop :=
  ∀ (s : State) (i : Instr) (b : Bit) (src dst : BitVec 16) (csum : BitVec 32),
    (i = .ack0 src dst csum ∧ b = false ∨ i = .ack1 src dst csum ∧ b = true) →
    let h := bytesBe16 s.cfgSrc ++ bytesBe16 s.cfgDst ++ [bitByte b]
    let acked := receivedEvent s = .allFine ∧ s.state = stateOfBit b ∨
      receivedEvent s = .wrongAlternating ∧ s.lav = true ∧ s.lab = b
    (acked → ∃ t, exec i s = .next t ∧ exec (.rxe 0) s = .next t ∧ t.out.ack = some (h ++ bytesBe32 (crc32 h))) ∧
    (¬ acked → exec i s = .next { s with out := Out.none, fsmOut := none })

/-- The spec's own inference from R170 and R33 (in its R173): every ACK any operation emits is, byte for byte, one of
the two of the session, nine bytes long. -/
def Obligations.EveryAckIsOneOfTwo : Prop :=
  ∀ (i : Instr) (s t : State) (a : List Byte), exec i s = .next t → t.out.ack = some a →
    (a = buildAck isoHdlc s.cfgSrc s.cfgDst false ∨ a = buildAck isoHdlc s.cfgSrc s.cfgDst true) ∧ a.length = 9 ∧
    t.cfgSrc = s.cfgSrc ∧ t.cfgDst = s.cfgDst

/-- Every ACK emitted carries the bit of the last unit acknowledged, which has been: in a state of the invariant, whatever is
presented (the spec's own inference from R176, R177 and R32, its R180). -/
def Obligations.AcksCarryTheLastAcknowledgedBit : Prop :=
  ∀ (s t : State) (a : List Byte), Inv s → step s = .next t → t.out.ack = some a →
    t.lav = true ∧ a = buildAck isoHdlc t.cfgSrc t.cfgDst t.lab ∧ ackBit a = t.lab ∧ t.lab = !expectedBit t.state

/-- An ACK and a delivery leave the block only in a step that is, or ends with, an RXE, on a datagram that is not corrupt: in a
state of the invariant, an operation or a step that emits or delivers does what RXE does in the state it started from, with the
bytes of the datagram it presents, if it presents one, received first; and what has then been received passes the structure and
checksum tests (the spec's own inferences from R176 to R178 and R186 to R189, its R179 and R180). That a whole datagram, an ACK
word and an FSM-IN word are operations is the model's choice: log 12, log 13, log 14, log 15. -/
def Obligations.OutputsOnlyInTheStepOfAnRxe : Prop :=
  (∀ (i : Instr) (s t : State), Inv s → exec i s = .next t → t.out.ack.isSome = true ∨ t.out.deliver.isSome = true →
    let u := (presentedDatagram (encode i)).foldl receiveByte s
    (∀ data, exec (.rxe data) u = .next t) ∧ isCorrupt isoHdlc (rxView u) = false) ∧
  (∀ s t : State, Inv s → step s = .next t → t.out.ack.isSome = true ∨ t.out.deliver.isSome = true →
    ∃ e, fetch s = .word e ∧
      let u := (presentedDatagram e).foldl receiveByte { s with inputs := s.inputs.tail }
      (∀ data, exec (.rxe data) u = .next t) ∧ isCorrupt isoHdlc (rxView u) = false)

/-! ## The whole machine -/

/-- When what stands at the inputs decodes to an instruction, that instruction is well-formed and a step is its
execution in the state with the head of the inputs taken; what is read at the FSM is the word of STATE and the event
(R63, R89; log 6, log 16). -/
def Obligations.StepRunsTheDecodedInstruction : Prop :=
  (∀ (s : State) (e : Enc) (i : Instr), fetch s = .word e → decode e = .ok i →
    WellFormed i ∧ step s = exec i { s with inputs := s.inputs.tail }) ∧
  (∀ (s : State) (rest : List Input),
    (∀ c, s.inputs = .port c :: rest → fetch s = .word (.cmd c)) ∧
    (∀ d, s.inputs = .datagram d :: rest → fetch s = .word (.data d)) ∧
    (∀ a, s.inputs = .ackWord a :: rest → fetch s = .word (.ack a)) ∧
    (∀ e, s.inputs = .event e :: rest → fetch s = .word (.fsm (BitVec.ofBool (expectedBit s.state) ++ e))))

/-- With nothing presented the block keeps everything and outputs nothing; a change of the two configuration inputs changes
those inputs alone, not the latched ports; and a word that is neither ACK does nothing (R66, R187, R223, R233, R250). That these
are steps is the model's choice: log 7, log 8, log 18. -/
def Obligations.IdleAndConfigurationSteps : Prop :=
  ∀ s : State,
    (s.inputs = [] → step s = .next { s with out := Out.none, fsmOut := none }) ∧
    (∀ src dst rest, s.inputs = .config src dst :: rest →
      step s = .next { s with ackSrcPort := src, ackDstPort := dst, inputs := rest, out := Out.none, fsmOut := none }) ∧
    (∀ a rest, s.inputs = .ackWord a :: rest → 1 < (a.extractLsb' 32 8).toNat →
      step s = .next { s with inputs := rest, out := Out.none, fsmOut := none })

/-- R33: CFG_SRC and CFG_DST are loaded from the configuration inputs by RST and by nothing else, over every operation
and every step; no operation drives those inputs; and the framer reads the two registers. -/
def Obligations.ConfigurationLatchedOnlyByReset : Prop :=
  (∀ (s t : State) (cmd : BitVec 2) (data : Byte), exec (.rst cmd data) s = .next t →
    t.cfgSrc = s.ackSrcPort ∧ t.cfgDst = s.ackDstPort) ∧
  (∀ (s t : State) (i : Instr), exec i s = .next t → (∀ cmd data, i ≠ .rst cmd data) →
    t.cfgSrc = s.cfgSrc ∧ t.cfgDst = s.cfgDst) ∧
  (∀ (s t : State) (i : Instr), exec i s = .next t → t.ackSrcPort = s.ackSrcPort ∧ t.ackDstPort = s.ackDstPort) ∧
  (∀ s t : State, step s = .next t → t.cfgSrc ≠ s.cfgSrc ∨ t.cfgDst ≠ s.cfgDst →
    ∃ c rest cmd data, s.inputs = .port c :: rest ∧ decode (.cmd c) = .ok (.rst cmd data)) ∧
  (∀ (s : State) (b : Bit),
    sessionAck isoHdlc s b = bytesBe16 s.cfgSrc ++ bytesBe16 s.cfgDst ++ [bitByte b] ++
      bytesBe32 (crc32 (bytesBe16 s.cfgSrc ++ bytesBe16 s.cfgDst ++ [bitByte b])))

/-- Every operation is total: exec answers a next state for every instruction and state (R185, R223; for CMD_RSVD, log
9). -/
def Obligations.EveryOperationCompletes : Prop :=
  ∀ (i : Instr) (s : State), ∃ t, exec i s = .next t

/-- The block never halts, hangs or is refused: a step answers a next state whatever is presented (R223; for CMD_RSVD, the
impossible FSM words and a word that is neither ACK, log 9, log 17, log 18). -/
def Obligations.EveryStepCompletes : Prop :=
  ∀ s : State, ∃ t, step s = .next t

/-- R40: the values the spec gives for the state after reset. -/
def Obligations.ResetStateHasTheSpecsValues : Prop :=
  State.reset.state = .waitForZero ∧ expectedBit State.reset.state = false ∧ State.reset.lav = false ∧
  State.reset.lab = false ∧ State.reset.cfgSrc = State.reset.ackSrcPort ∧ State.reset.cfgDst = State.reset.ackDstPort ∧
  State.reset.rxcnt = 0 ∧ State.reset.crc = 0xFFFFFFFF ∧ State.reset.out = Out.none

/-- The invariant holds after reset. -/
def Obligations.InvariantHoldsAtReset : Prop := Inv State.reset

/-- Every step, and every operation, keeps the invariant: the counter in range (R26), PBUF canonical (R50), the session legal
(R32, R199), the running register the CRC of the covered bytes (R105), every payload cell written before it can be read
(R39). -/
def Obligations.EveryStepKeepsTheInvariant : Prop :=
  (∀ s t : State, Inv s → step s = .next t → Inv t) ∧
  ∀ (i : Instr) (s t : State), Inv s → exec i s = .next t → Inv t

/-- The environment's counters (R230): per datagram exactly one of them counts, the good one exactly for a delivery. That they
count without bound is the model's choice, log 30: the spec decides no width and no overflow. -/
def Obligations.EveryDatagramIsCountedOnce : Prop :=
  ∀ (cfg : Config.Cfg) (rxs : List RxView) (s : State),
    let outs := (runDatagrams cfg rxs s).2
    countGood outs + countBad outs = rxs.length ∧ countGood outs = deliveries outs
end

