-- ==== Sys2Proof/Laws/Crc.lean ====
section
/-! SUPPORT. The checksum engine: its steps add (R103's linearity), and a register runs through a concatenation. -/

namespace Sys2Proof.Machine

@[simp] theorem crcShifts_zero (c : BitVec 32) : crcShifts 0 c = c := rfl
theorem crcShifts_succ (n : Nat) (c : BitVec 32) : crcShifts (n + 1) c = crcShifts n (crcShift c) := rfl

/-- One step is linear over XOR (R103). -/
theorem crcShift_xor (a b : BitVec 32) : crcShift (a ^^^ b) = crcShift a ^^^ crcShift b := by
  have e : (a ^^^ b) >>> 1 = a >>> 1 ^^^ b >>> 1 := BitVec.ushiftRight_xor_distrib a b 1
  simp only [crcShift, BitVec.getLsbD_xor, e]
  cases a.getLsbD 0 <;> cases b.getLsbD 0 <;> simp <;> ac_nf
  simp

/-- `n` steps are linear over XOR (R103). -/
theorem crcShifts_xor (n : Nat) (a b : BitVec 32) : crcShifts n (a ^^^ b) = crcShifts n a ^^^ crcShifts n b := by
  induction n generalizing a b with
  | zero => rfl
  | succ n ih => simp only [crcShifts_succ, crcShift_xor, ih]

@[simp] theorem crcRegister_nil (c : BitVec 32) : crcRegister c [] = c := rfl

theorem crcRegister_append (c : BitVec 32) (m n : List Byte) :
    crcRegister c (m ++ n) = crcRegister (crcRegister c m) n := List.foldl_append

theorem crcRegister_concat (c : BitVec 32) (m : List Byte) (b : Byte) :
    crcRegister c (m ++ [b]) = crcUpdate (crcRegister c m) b := by rw [crcRegister_append]; rfl

end Sys2Proof.Machine
end

