-- ==== Sys2Proof/Laws/Decode.lean ====
section
/-! SUPPORT. Byte order and structural decoding, one lemma per function. -/

namespace Sys2Proof

/-- Appending bits is adding them below (R15). -/
theorem append_toNat {m n : Nat} (a : BitVec m) (b : BitVec n) : (a ++ b).toNat = 2 ^ n * a.toNat + b.toNat := by
  rw [BitVec.toNat_append, Nat.shiftLeft_eq, Nat.mul_comm, Nat.two_pow_add_eq_or_of_lt b.isLt]

/-- `be16(b0, b1) = 256*b0 + b1` (R15). -/
theorem be16_toNat (b0 b1 : Byte) : (be16 b0 b1).toNat = 256 * b0.toNat + b1.toNat := append_toNat b0 b1

/-- `be32`, likewise (R15). -/
theorem be32_toNat (b0 b1 b2 b3 : Byte) :
    (be32 b0 b1 b2 b3).toNat = 2 ^ 24 * b0.toNat + 2 ^ 16 * b1.toNat + 2 ^ 8 * b2.toNat + b3.toNat := by
  have h : (be32 b0 b1 b2 b3).toNat = 2 ^ 8 * (2 ^ 8 * (2 ^ 8 * b0.toNat + b1.toNat) + b2.toNat) + b3.toNat := by
    rw [← append_toNat, ← append_toNat, ← append_toNat]; rfl
  omega

theorem extractByte_toNat {w : Nat} (v : BitVec w) (i : Nat) : (v.extractLsb' i 8).toNat = v.toNat / 2 ^ i % 256 := by
  rw [BitVec.extractLsb'_toNat, Nat.shiftRight_eq_div_pow]

/-- `bytes_be16` is undone by `be16`. -/
theorem be16_bytes (v : BitVec 16) : be16 (v.extractLsb' 8 8) (v.extractLsb' 0 8) = v := by
  apply BitVec.eq_of_toNat_eq
  have := v.isLt
  rw [be16_toNat, extractByte_toNat, extractByte_toNat]
  omega

/-- `bytes_be32` is undone by `be32`. -/
theorem be32_bytes (v : BitVec 32) :
    be32 (v.extractLsb' 24 8) (v.extractLsb' 16 8) (v.extractLsb' 8 8) (v.extractLsb' 0 8) = v := by
  apply BitVec.eq_of_toNat_eq
  have := v.isLt
  simp only [be32_toNat, extractByte_toNat]
  omega

/-- `be16` is undone by `bytes_be16`. -/
theorem bytesBe16_be16 (b0 b1 : Byte) : bytesBe16 (be16 b0 b1) = [b0, b1] := by
  have := b0.isLt; have := b1.isLt
  simp only [bytesBe16, List.cons.injEq, and_true]
  constructor <;> apply BitVec.eq_of_toNat_eq <;> rw [extractByte_toNat, be16_toNat] <;> omega

/-- `be32` is undone by `bytes_be32`. -/
theorem bytesBe32_be32 (b0 b1 b2 b3 : Byte) : bytesBe32 (be32 b0 b1 b2 b3) = [b0, b1, b2, b3] := by
  have := b0.isLt; have := b1.isLt; have := b2.isLt; have := b3.isLt
  simp only [bytesBe32, List.cons.injEq, and_true]
  refine ⟨?_, ?_, ?_, ?_⟩ <;> apply BitVec.eq_of_toNat_eq <;> rw [extractByte_toNat, be32_toNat] <;> omega

@[simp] theorem bytesBe16_length (v : BitVec 16) : (bytesBe16 v).length = 2 := rfl
@[simp] theorem bytesBe32_length (v : BitVec 32) : (bytesBe32 v).length = 4 := rfl
@[simp] theorem dataPrefix_length (src dst : BitVec 16) (seq flag : Byte) (len : BitVec 16) (csum : BitVec 32) :
    (dataPrefix src dst seq flag len csum).length = 12 := rfl

/-- Fewer than 12 bytes are SHORT (R124). -/
theorem decodeFields_short {d : List Byte} (h : d.length < 12) : decodeFields d = .error .short := by
  unfold decodeFields
  split
  · simp at h; omega
  · rfl

/-- What `decode` makes of a string that begins with a prefix of 12 bytes (R124). -/
theorem decodeFields_prefix (src dst : BitVec 16) (seq flag : Byte) (len : BitVec 16) (csum : BitVec 32) (p : List Byte) :
    decodeFields (dataPrefix src dst seq flag len csum ++ p) =
      if p.length ≠ len.toNat then .error .length
      else if 1 < seq.toNat then .error .seqRange
      else .ok { header := bytesBe16 src ++ bytesBe16 dst ++ [seq, flag] ++ bytesBe16 len, src := src, dst := dst,
                 seq := seq.getLsbD 0, flag := flag, len := len, claimed := csum, payload := p } := by
  simp only [dataPrefix, bytesBe16, bytesBe32, List.cons_append, List.nil_append, decodeFields, List.length_cons,
    extractPayloadLength, extractSequenceBit, List.getD_cons_succ, List.getD_cons_zero, be16_bytes, be32_bytes]
  congr 1
  simp only [ne_eq, eq_iff_iff, not_iff_not]
  omega

/-- A string of at least 12 bytes is a prefix and the rest. -/
theorem eq_dataPrefix_append {d : List Byte} (h : 12 ≤ d.length) :
    ∃ src dst seq flag len csum p, d = dataPrefix src dst seq flag len csum ++ p := by
  match d, h with
  | d0 :: d1 :: d2 :: d3 :: d4 :: d5 :: d6 :: d7 :: d8 :: d9 :: d10 :: d11 :: p, _ =>
    refine ⟨be16 d0 d1, be16 d2 d3, d4, d5, be16 d6 d7, be32 d8 d9 d10 d11, p, ?_⟩
    simp [dataPrefix, bytesBe16_be16, bytesBe32_be32]

end Sys2Proof
end

