-- ==== Sys2Proof/Laws/State.lean ====
section
/-! SUPPORT. One lemma per field per register write, each true by rfl, so that no proof unfolds a record update. -/

namespace Sys2Proof.Machine

variable (s : State)

@[simp] theorem State.quiet_hdr : s.quiet.hdr = s.hdr := rfl
@[simp] theorem State.quiet_csum : s.quiet.csum = s.csum := rfl
@[simp] theorem State.quiet_crc : s.quiet.crc = s.crc := rfl
@[simp] theorem State.quiet_rxcnt : s.quiet.rxcnt = s.rxcnt := rfl
@[simp] theorem State.quiet_pbuf : s.quiet.pbuf = s.pbuf := rfl
@[simp] theorem State.quiet_state : s.quiet.state = s.state := rfl
@[simp] theorem State.quiet_lav : s.quiet.lav = s.lav := rfl
@[simp] theorem State.quiet_lab : s.quiet.lab = s.lab := rfl
@[simp] theorem State.quiet_cfgSrc : s.quiet.cfgSrc = s.cfgSrc := rfl
@[simp] theorem State.quiet_cfgDst : s.quiet.cfgDst = s.cfgDst := rfl
@[simp] theorem State.quiet_ackSrcPort : s.quiet.ackSrcPort = s.ackSrcPort := rfl
@[simp] theorem State.quiet_ackDstPort : s.quiet.ackDstPort = s.ackDstPort := rfl
@[simp] theorem State.quiet_inputs : s.quiet.inputs = s.inputs := rfl
@[simp] theorem State.quiet_out : s.quiet.out = Out.none := rfl
@[simp] theorem State.quiet_fsmOut : s.quiet.fsmOut = none := rfl
@[simp] theorem State.quiet_resets : s.quiet.resets = s.resets := rfl

@[simp] theorem State.putHdr_hdr (i : Fin 8) (b : Byte) : (s.putHdr i b).hdr = s.hdr.set i b := rfl
@[simp] theorem State.putHdr_csum (i : Fin 8) (b : Byte) : (s.putHdr i b).csum = s.csum := rfl
@[simp] theorem State.putHdr_crc (i : Fin 8) (b : Byte) : (s.putHdr i b).crc = s.crc := rfl
@[simp] theorem State.putHdr_rxcnt (i : Fin 8) (b : Byte) : (s.putHdr i b).rxcnt = s.rxcnt := rfl
@[simp] theorem State.putHdr_pbuf (i : Fin 8) (b : Byte) : (s.putHdr i b).pbuf = s.pbuf := rfl
@[simp] theorem State.putHdr_state (i : Fin 8) (b : Byte) : (s.putHdr i b).state = s.state := rfl
@[simp] theorem State.putHdr_lav (i : Fin 8) (b : Byte) : (s.putHdr i b).lav = s.lav := rfl
@[simp] theorem State.putHdr_lab (i : Fin 8) (b : Byte) : (s.putHdr i b).lab = s.lab := rfl
@[simp] theorem State.putHdr_cfgSrc (i : Fin 8) (b : Byte) : (s.putHdr i b).cfgSrc = s.cfgSrc := rfl
@[simp] theorem State.putHdr_cfgDst (i : Fin 8) (b : Byte) : (s.putHdr i b).cfgDst = s.cfgDst := rfl
@[simp] theorem State.putHdr_ackSrcPort (i : Fin 8) (b : Byte) : (s.putHdr i b).ackSrcPort = s.ackSrcPort := rfl
@[simp] theorem State.putHdr_ackDstPort (i : Fin 8) (b : Byte) : (s.putHdr i b).ackDstPort = s.ackDstPort := rfl
@[simp] theorem State.putHdr_inputs (i : Fin 8) (b : Byte) : (s.putHdr i b).inputs = s.inputs := rfl
@[simp] theorem State.putHdr_out (i : Fin 8) (b : Byte) : (s.putHdr i b).out = s.out := rfl
@[simp] theorem State.putHdr_fsmOut (i : Fin 8) (b : Byte) : (s.putHdr i b).fsmOut = s.fsmOut := rfl
@[simp] theorem State.putHdr_resets (i : Fin 8) (b : Byte) : (s.putHdr i b).resets = s.resets := rfl

@[simp] theorem State.putCsum_hdr (i : Fin 4) (b : Byte) : (s.putCsum i b).hdr = s.hdr := rfl
@[simp] theorem State.putCsum_csum (i : Fin 4) (b : Byte) : (s.putCsum i b).csum = s.csum.set i b := rfl
@[simp] theorem State.putCsum_crc (i : Fin 4) (b : Byte) : (s.putCsum i b).crc = s.crc := rfl
@[simp] theorem State.putCsum_rxcnt (i : Fin 4) (b : Byte) : (s.putCsum i b).rxcnt = s.rxcnt := rfl
@[simp] theorem State.putCsum_pbuf (i : Fin 4) (b : Byte) : (s.putCsum i b).pbuf = s.pbuf := rfl
@[simp] theorem State.putCsum_state (i : Fin 4) (b : Byte) : (s.putCsum i b).state = s.state := rfl
@[simp] theorem State.putCsum_lav (i : Fin 4) (b : Byte) : (s.putCsum i b).lav = s.lav := rfl
@[simp] theorem State.putCsum_lab (i : Fin 4) (b : Byte) : (s.putCsum i b).lab = s.lab := rfl
@[simp] theorem State.putCsum_cfgSrc (i : Fin 4) (b : Byte) : (s.putCsum i b).cfgSrc = s.cfgSrc := rfl
@[simp] theorem State.putCsum_cfgDst (i : Fin 4) (b : Byte) : (s.putCsum i b).cfgDst = s.cfgDst := rfl
@[simp] theorem State.putCsum_ackSrcPort (i : Fin 4) (b : Byte) : (s.putCsum i b).ackSrcPort = s.ackSrcPort := rfl
@[simp] theorem State.putCsum_ackDstPort (i : Fin 4) (b : Byte) : (s.putCsum i b).ackDstPort = s.ackDstPort := rfl
@[simp] theorem State.putCsum_inputs (i : Fin 4) (b : Byte) : (s.putCsum i b).inputs = s.inputs := rfl
@[simp] theorem State.putCsum_out (i : Fin 4) (b : Byte) : (s.putCsum i b).out = s.out := rfl
@[simp] theorem State.putCsum_fsmOut (i : Fin 4) (b : Byte) : (s.putCsum i b).fsmOut = s.fsmOut := rfl
@[simp] theorem State.putCsum_resets (i : Fin 4) (b : Byte) : (s.putCsum i b).resets = s.resets := rfl

@[simp] theorem State.putPbuf_hdr (a : Nat) (b : Byte) : (s.putPbuf a b).hdr = s.hdr := rfl
@[simp] theorem State.putPbuf_csum (a : Nat) (b : Byte) : (s.putPbuf a b).csum = s.csum := rfl
@[simp] theorem State.putPbuf_crc (a : Nat) (b : Byte) : (s.putPbuf a b).crc = s.crc := rfl
@[simp] theorem State.putPbuf_rxcnt (a : Nat) (b : Byte) : (s.putPbuf a b).rxcnt = s.rxcnt := rfl
@[simp] theorem State.putPbuf_pbuf (a : Nat) (b : Byte) : (s.putPbuf a b).pbuf = memPut s.pbuf a b := rfl
@[simp] theorem State.putPbuf_state (a : Nat) (b : Byte) : (s.putPbuf a b).state = s.state := rfl
@[simp] theorem State.putPbuf_lav (a : Nat) (b : Byte) : (s.putPbuf a b).lav = s.lav := rfl
@[simp] theorem State.putPbuf_lab (a : Nat) (b : Byte) : (s.putPbuf a b).lab = s.lab := rfl
@[simp] theorem State.putPbuf_cfgSrc (a : Nat) (b : Byte) : (s.putPbuf a b).cfgSrc = s.cfgSrc := rfl
@[simp] theorem State.putPbuf_cfgDst (a : Nat) (b : Byte) : (s.putPbuf a b).cfgDst = s.cfgDst := rfl
@[simp] theorem State.putPbuf_ackSrcPort (a : Nat) (b : Byte) : (s.putPbuf a b).ackSrcPort = s.ackSrcPort := rfl
@[simp] theorem State.putPbuf_ackDstPort (a : Nat) (b : Byte) : (s.putPbuf a b).ackDstPort = s.ackDstPort := rfl
@[simp] theorem State.putPbuf_inputs (a : Nat) (b : Byte) : (s.putPbuf a b).inputs = s.inputs := rfl
@[simp] theorem State.putPbuf_out (a : Nat) (b : Byte) : (s.putPbuf a b).out = s.out := rfl
@[simp] theorem State.putPbuf_fsmOut (a : Nat) (b : Byte) : (s.putPbuf a b).fsmOut = s.fsmOut := rfl
@[simp] theorem State.putPbuf_resets (a : Nat) (b : Byte) : (s.putPbuf a b).resets = s.resets := rfl

@[simp] theorem State.putCrc_hdr (v : BitVec 32) : (s.putCrc v).hdr = s.hdr := rfl
@[simp] theorem State.putCrc_csum (v : BitVec 32) : (s.putCrc v).csum = s.csum := rfl
@[simp] theorem State.putCrc_crc (v : BitVec 32) : (s.putCrc v).crc = v := rfl
@[simp] theorem State.putCrc_rxcnt (v : BitVec 32) : (s.putCrc v).rxcnt = s.rxcnt := rfl
@[simp] theorem State.putCrc_pbuf (v : BitVec 32) : (s.putCrc v).pbuf = s.pbuf := rfl
@[simp] theorem State.putCrc_state (v : BitVec 32) : (s.putCrc v).state = s.state := rfl
@[simp] theorem State.putCrc_lav (v : BitVec 32) : (s.putCrc v).lav = s.lav := rfl
@[simp] theorem State.putCrc_lab (v : BitVec 32) : (s.putCrc v).lab = s.lab := rfl
@[simp] theorem State.putCrc_cfgSrc (v : BitVec 32) : (s.putCrc v).cfgSrc = s.cfgSrc := rfl
@[simp] theorem State.putCrc_cfgDst (v : BitVec 32) : (s.putCrc v).cfgDst = s.cfgDst := rfl
@[simp] theorem State.putCrc_ackSrcPort (v : BitVec 32) : (s.putCrc v).ackSrcPort = s.ackSrcPort := rfl
@[simp] theorem State.putCrc_ackDstPort (v : BitVec 32) : (s.putCrc v).ackDstPort = s.ackDstPort := rfl
@[simp] theorem State.putCrc_inputs (v : BitVec 32) : (s.putCrc v).inputs = s.inputs := rfl
@[simp] theorem State.putCrc_out (v : BitVec 32) : (s.putCrc v).out = s.out := rfl
@[simp] theorem State.putCrc_fsmOut (v : BitVec 32) : (s.putCrc v).fsmOut = s.fsmOut := rfl
@[simp] theorem State.putCrc_resets (v : BitVec 32) : (s.putCrc v).resets = s.resets := rfl

@[simp] theorem State.putRxcnt_hdr (n : Nat) : (s.putRxcnt n).hdr = s.hdr := rfl
@[simp] theorem State.putRxcnt_csum (n : Nat) : (s.putRxcnt n).csum = s.csum := rfl
@[simp] theorem State.putRxcnt_crc (n : Nat) : (s.putRxcnt n).crc = s.crc := rfl
@[simp] theorem State.putRxcnt_rxcnt (n : Nat) : (s.putRxcnt n).rxcnt = BitVec.ofNat 17 n := rfl
@[simp] theorem State.putRxcnt_pbuf (n : Nat) : (s.putRxcnt n).pbuf = s.pbuf := rfl
@[simp] theorem State.putRxcnt_state (n : Nat) : (s.putRxcnt n).state = s.state := rfl
@[simp] theorem State.putRxcnt_lav (n : Nat) : (s.putRxcnt n).lav = s.lav := rfl
@[simp] theorem State.putRxcnt_lab (n : Nat) : (s.putRxcnt n).lab = s.lab := rfl
@[simp] theorem State.putRxcnt_cfgSrc (n : Nat) : (s.putRxcnt n).cfgSrc = s.cfgSrc := rfl
@[simp] theorem State.putRxcnt_cfgDst (n : Nat) : (s.putRxcnt n).cfgDst = s.cfgDst := rfl
@[simp] theorem State.putRxcnt_ackSrcPort (n : Nat) : (s.putRxcnt n).ackSrcPort = s.ackSrcPort := rfl
@[simp] theorem State.putRxcnt_ackDstPort (n : Nat) : (s.putRxcnt n).ackDstPort = s.ackDstPort := rfl
@[simp] theorem State.putRxcnt_inputs (n : Nat) : (s.putRxcnt n).inputs = s.inputs := rfl
@[simp] theorem State.putRxcnt_out (n : Nat) : (s.putRxcnt n).out = s.out := rfl
@[simp] theorem State.putRxcnt_fsmOut (n : Nat) : (s.putRxcnt n).fsmOut = s.fsmOut := rfl
@[simp] theorem State.putRxcnt_resets (n : Nat) : (s.putRxcnt n).resets = s.resets := rfl

@[simp] theorem State.putLastAck_hdr (b : Bit) : (s.putLastAck b).hdr = s.hdr := rfl
@[simp] theorem State.putLastAck_csum (b : Bit) : (s.putLastAck b).csum = s.csum := rfl
@[simp] theorem State.putLastAck_crc (b : Bit) : (s.putLastAck b).crc = s.crc := rfl
@[simp] theorem State.putLastAck_rxcnt (b : Bit) : (s.putLastAck b).rxcnt = s.rxcnt := rfl
@[simp] theorem State.putLastAck_pbuf (b : Bit) : (s.putLastAck b).pbuf = s.pbuf := rfl
@[simp] theorem State.putLastAck_state (b : Bit) : (s.putLastAck b).state = s.state := rfl
@[simp] theorem State.putLastAck_lav (b : Bit) : (s.putLastAck b).lav = true := rfl
@[simp] theorem State.putLastAck_lab (b : Bit) : (s.putLastAck b).lab = b := rfl
@[simp] theorem State.putLastAck_cfgSrc (b : Bit) : (s.putLastAck b).cfgSrc = s.cfgSrc := rfl
@[simp] theorem State.putLastAck_cfgDst (b : Bit) : (s.putLastAck b).cfgDst = s.cfgDst := rfl
@[simp] theorem State.putLastAck_ackSrcPort (b : Bit) : (s.putLastAck b).ackSrcPort = s.ackSrcPort := rfl
@[simp] theorem State.putLastAck_ackDstPort (b : Bit) : (s.putLastAck b).ackDstPort = s.ackDstPort := rfl
@[simp] theorem State.putLastAck_inputs (b : Bit) : (s.putLastAck b).inputs = s.inputs := rfl
@[simp] theorem State.putLastAck_out (b : Bit) : (s.putLastAck b).out = s.out := rfl
@[simp] theorem State.putLastAck_fsmOut (b : Bit) : (s.putLastAck b).fsmOut = s.fsmOut := rfl
@[simp] theorem State.putLastAck_resets (b : Bit) : (s.putLastAck b).resets = s.resets := rfl

@[simp] theorem State.putFsm_hdr (r : FsmOut) : (s.putFsm r).hdr = s.hdr := rfl
@[simp] theorem State.putFsm_csum (r : FsmOut) : (s.putFsm r).csum = s.csum := rfl
@[simp] theorem State.putFsm_crc (r : FsmOut) : (s.putFsm r).crc = s.crc := rfl
@[simp] theorem State.putFsm_rxcnt (r : FsmOut) : (s.putFsm r).rxcnt = s.rxcnt := rfl
@[simp] theorem State.putFsm_pbuf (r : FsmOut) : (s.putFsm r).pbuf = s.pbuf := rfl
@[simp] theorem State.putFsm_state (r : FsmOut) : (s.putFsm r).state = r.next := rfl
@[simp] theorem State.putFsm_lav (r : FsmOut) : (s.putFsm r).lav = s.lav := rfl
@[simp] theorem State.putFsm_lab (r : FsmOut) : (s.putFsm r).lab = s.lab := rfl
@[simp] theorem State.putFsm_cfgSrc (r : FsmOut) : (s.putFsm r).cfgSrc = s.cfgSrc := rfl
@[simp] theorem State.putFsm_cfgDst (r : FsmOut) : (s.putFsm r).cfgDst = s.cfgDst := rfl
@[simp] theorem State.putFsm_ackSrcPort (r : FsmOut) : (s.putFsm r).ackSrcPort = s.ackSrcPort := rfl
@[simp] theorem State.putFsm_ackDstPort (r : FsmOut) : (s.putFsm r).ackDstPort = s.ackDstPort := rfl
@[simp] theorem State.putFsm_inputs (r : FsmOut) : (s.putFsm r).inputs = s.inputs := rfl
@[simp] theorem State.putFsm_out (r : FsmOut) : (s.putFsm r).out = s.out := rfl
@[simp] theorem State.putFsm_fsmOut (r : FsmOut) : (s.putFsm r).fsmOut = some r := rfl
@[simp] theorem State.putFsm_resets (r : FsmOut) : (s.putFsm r).resets = s.resets := rfl

@[simp] theorem State.putAnswer_hdr (r : FsmOut) : (s.putAnswer r).hdr = s.hdr := rfl
@[simp] theorem State.putAnswer_csum (r : FsmOut) : (s.putAnswer r).csum = s.csum := rfl
@[simp] theorem State.putAnswer_crc (r : FsmOut) : (s.putAnswer r).crc = s.crc := rfl
@[simp] theorem State.putAnswer_rxcnt (r : FsmOut) : (s.putAnswer r).rxcnt = s.rxcnt := rfl
@[simp] theorem State.putAnswer_pbuf (r : FsmOut) : (s.putAnswer r).pbuf = s.pbuf := rfl
@[simp] theorem State.putAnswer_state (r : FsmOut) : (s.putAnswer r).state = s.state := rfl
@[simp] theorem State.putAnswer_lav (r : FsmOut) : (s.putAnswer r).lav = s.lav := rfl
@[simp] theorem State.putAnswer_lab (r : FsmOut) : (s.putAnswer r).lab = s.lab := rfl
@[simp] theorem State.putAnswer_cfgSrc (r : FsmOut) : (s.putAnswer r).cfgSrc = s.cfgSrc := rfl
@[simp] theorem State.putAnswer_cfgDst (r : FsmOut) : (s.putAnswer r).cfgDst = s.cfgDst := rfl
@[simp] theorem State.putAnswer_ackSrcPort (r : FsmOut) : (s.putAnswer r).ackSrcPort = s.ackSrcPort := rfl
@[simp] theorem State.putAnswer_ackDstPort (r : FsmOut) : (s.putAnswer r).ackDstPort = s.ackDstPort := rfl
@[simp] theorem State.putAnswer_inputs (r : FsmOut) : (s.putAnswer r).inputs = s.inputs := rfl
@[simp] theorem State.putAnswer_out (r : FsmOut) : (s.putAnswer r).out = s.out := rfl
@[simp] theorem State.putAnswer_fsmOut (r : FsmOut) : (s.putAnswer r).fsmOut = some r := rfl
@[simp] theorem State.putAnswer_resets (r : FsmOut) : (s.putAnswer r).resets = s.resets := rfl

@[simp] theorem State.putSession_hdr (st : FsmState) (e : Bit) : (s.putSession st e).hdr = s.hdr := rfl
@[simp] theorem State.putSession_csum (st : FsmState) (e : Bit) : (s.putSession st e).csum = s.csum := rfl
@[simp] theorem State.putSession_crc (st : FsmState) (e : Bit) : (s.putSession st e).crc = s.crc := rfl
@[simp] theorem State.putSession_rxcnt (st : FsmState) (e : Bit) : (s.putSession st e).rxcnt = s.rxcnt := rfl
@[simp] theorem State.putSession_pbuf (st : FsmState) (e : Bit) : (s.putSession st e).pbuf = s.pbuf := rfl
@[simp] theorem State.putSession_state (st : FsmState) (e : Bit) : (s.putSession st e).state = st := rfl
@[simp] theorem State.putSession_lav (st : FsmState) (e : Bit) : (s.putSession st e).lav = (s.lav || e) := rfl
@[simp] theorem State.putSession_lab (st : FsmState) (e : Bit) : (s.putSession st e).lab = (s.lav && !e) := rfl
@[simp] theorem State.putSession_cfgSrc (st : FsmState) (e : Bit) : (s.putSession st e).cfgSrc = s.cfgSrc := rfl
@[simp] theorem State.putSession_cfgDst (st : FsmState) (e : Bit) : (s.putSession st e).cfgDst = s.cfgDst := rfl
@[simp] theorem State.putSession_ackSrcPort (st : FsmState) (e : Bit) : (s.putSession st e).ackSrcPort = s.ackSrcPort := rfl
@[simp] theorem State.putSession_ackDstPort (st : FsmState) (e : Bit) : (s.putSession st e).ackDstPort = s.ackDstPort := rfl
@[simp] theorem State.putSession_inputs (st : FsmState) (e : Bit) : (s.putSession st e).inputs = s.inputs := rfl
@[simp] theorem State.putSession_out (st : FsmState) (e : Bit) : (s.putSession st e).out = s.out := rfl
@[simp] theorem State.putSession_fsmOut (st : FsmState) (e : Bit) : (s.putSession st e).fsmOut = s.fsmOut := rfl
@[simp] theorem State.putSession_resets (st : FsmState) (e : Bit) : (s.putSession st e).resets = s.resets := rfl

@[simp] theorem State.putOut_hdr (o : Out) : (s.putOut o).hdr = s.hdr := rfl
@[simp] theorem State.putOut_csum (o : Out) : (s.putOut o).csum = s.csum := rfl
@[simp] theorem State.putOut_crc (o : Out) : (s.putOut o).crc = s.crc := rfl
@[simp] theorem State.putOut_rxcnt (o : Out) : (s.putOut o).rxcnt = s.rxcnt := rfl
@[simp] theorem State.putOut_pbuf (o : Out) : (s.putOut o).pbuf = s.pbuf := rfl
@[simp] theorem State.putOut_state (o : Out) : (s.putOut o).state = s.state := rfl
@[simp] theorem State.putOut_lav (o : Out) : (s.putOut o).lav = s.lav := rfl
@[simp] theorem State.putOut_lab (o : Out) : (s.putOut o).lab = s.lab := rfl
@[simp] theorem State.putOut_cfgSrc (o : Out) : (s.putOut o).cfgSrc = s.cfgSrc := rfl
@[simp] theorem State.putOut_cfgDst (o : Out) : (s.putOut o).cfgDst = s.cfgDst := rfl
@[simp] theorem State.putOut_ackSrcPort (o : Out) : (s.putOut o).ackSrcPort = s.ackSrcPort := rfl
@[simp] theorem State.putOut_ackDstPort (o : Out) : (s.putOut o).ackDstPort = s.ackDstPort := rfl
@[simp] theorem State.putOut_inputs (o : Out) : (s.putOut o).inputs = s.inputs := rfl
@[simp] theorem State.putOut_out (o : Out) : (s.putOut o).out = o := rfl
@[simp] theorem State.putOut_fsmOut (o : Out) : (s.putOut o).fsmOut = s.fsmOut := rfl
@[simp] theorem State.putOut_resets (o : Out) : (s.putOut o).resets = s.resets := rfl

@[simp] theorem State.putPorts_hdr (src dst : BitVec 16) : (s.putPorts src dst).hdr = s.hdr := rfl
@[simp] theorem State.putPorts_csum (src dst : BitVec 16) : (s.putPorts src dst).csum = s.csum := rfl
@[simp] theorem State.putPorts_crc (src dst : BitVec 16) : (s.putPorts src dst).crc = s.crc := rfl
@[simp] theorem State.putPorts_rxcnt (src dst : BitVec 16) : (s.putPorts src dst).rxcnt = s.rxcnt := rfl
@[simp] theorem State.putPorts_pbuf (src dst : BitVec 16) : (s.putPorts src dst).pbuf = s.pbuf := rfl
@[simp] theorem State.putPorts_state (src dst : BitVec 16) : (s.putPorts src dst).state = s.state := rfl
@[simp] theorem State.putPorts_lav (src dst : BitVec 16) : (s.putPorts src dst).lav = s.lav := rfl
@[simp] theorem State.putPorts_lab (src dst : BitVec 16) : (s.putPorts src dst).lab = s.lab := rfl
@[simp] theorem State.putPorts_cfgSrc (src dst : BitVec 16) : (s.putPorts src dst).cfgSrc = s.cfgSrc := rfl
@[simp] theorem State.putPorts_cfgDst (src dst : BitVec 16) : (s.putPorts src dst).cfgDst = s.cfgDst := rfl
@[simp] theorem State.putPorts_ackSrcPort (src dst : BitVec 16) : (s.putPorts src dst).ackSrcPort = src := rfl
@[simp] theorem State.putPorts_ackDstPort (src dst : BitVec 16) : (s.putPorts src dst).ackDstPort = dst := rfl
@[simp] theorem State.putPorts_inputs (src dst : BitVec 16) : (s.putPorts src dst).inputs = s.inputs := rfl
@[simp] theorem State.putPorts_out (src dst : BitVec 16) : (s.putPorts src dst).out = s.out := rfl
@[simp] theorem State.putPorts_fsmOut (src dst : BitVec 16) : (s.putPorts src dst).fsmOut = s.fsmOut := rfl
@[simp] theorem State.putPorts_resets (src dst : BitVec 16) : (s.putPorts src dst).resets = s.resets := rfl

@[simp] theorem State.putInputs_hdr (l : List Input) : (s.putInputs l).hdr = s.hdr := rfl
@[simp] theorem State.putInputs_csum (l : List Input) : (s.putInputs l).csum = s.csum := rfl
@[simp] theorem State.putInputs_crc (l : List Input) : (s.putInputs l).crc = s.crc := rfl
@[simp] theorem State.putInputs_rxcnt (l : List Input) : (s.putInputs l).rxcnt = s.rxcnt := rfl
@[simp] theorem State.putInputs_pbuf (l : List Input) : (s.putInputs l).pbuf = s.pbuf := rfl
@[simp] theorem State.putInputs_state (l : List Input) : (s.putInputs l).state = s.state := rfl
@[simp] theorem State.putInputs_lav (l : List Input) : (s.putInputs l).lav = s.lav := rfl
@[simp] theorem State.putInputs_lab (l : List Input) : (s.putInputs l).lab = s.lab := rfl
@[simp] theorem State.putInputs_cfgSrc (l : List Input) : (s.putInputs l).cfgSrc = s.cfgSrc := rfl
@[simp] theorem State.putInputs_cfgDst (l : List Input) : (s.putInputs l).cfgDst = s.cfgDst := rfl
@[simp] theorem State.putInputs_ackSrcPort (l : List Input) : (s.putInputs l).ackSrcPort = s.ackSrcPort := rfl
@[simp] theorem State.putInputs_ackDstPort (l : List Input) : (s.putInputs l).ackDstPort = s.ackDstPort := rfl
@[simp] theorem State.putInputs_inputs (l : List Input) : (s.putInputs l).inputs = l := rfl
@[simp] theorem State.putInputs_out (l : List Input) : (s.putInputs l).out = s.out := rfl
@[simp] theorem State.putInputs_fsmOut (l : List Input) : (s.putInputs l).fsmOut = s.fsmOut := rfl
@[simp] theorem State.putInputs_resets (l : List Input) : (s.putInputs l).resets = s.resets := rfl

@[simp] theorem State.restart_hdr : s.restart.hdr = Vector.ofFn fun i : Fin 8 => Config.unspecifiedByte (s.resets + 1) i := rfl
@[simp] theorem State.restart_csum : s.restart.csum = Vector.ofFn fun i : Fin 4 => Config.unspecifiedByte (s.resets + 1) (8 + i) := rfl
@[simp] theorem State.restart_crc : s.restart.crc = crcInit := rfl
@[simp] theorem State.restart_rxcnt : s.restart.rxcnt = 0 := rfl
@[simp] theorem State.restart_pbuf : s.restart.pbuf = [] := rfl
@[simp] theorem State.restart_state : s.restart.state = FsmState.waitForZero := rfl
@[simp] theorem State.restart_lav : s.restart.lav = false := rfl
@[simp] theorem State.restart_lab : s.restart.lab = false := rfl
@[simp] theorem State.restart_cfgSrc : s.restart.cfgSrc = s.ackSrcPort := rfl
@[simp] theorem State.restart_cfgDst : s.restart.cfgDst = s.ackDstPort := rfl
@[simp] theorem State.restart_ackSrcPort : s.restart.ackSrcPort = s.ackSrcPort := rfl
@[simp] theorem State.restart_ackDstPort : s.restart.ackDstPort = s.ackDstPort := rfl
@[simp] theorem State.restart_inputs : s.restart.inputs = s.inputs := rfl
@[simp] theorem State.restart_out : s.restart.out = Out.none := rfl
@[simp] theorem State.restart_fsmOut : s.restart.fsmOut = none := rfl
@[simp] theorem State.restart_resets : s.restart.resets = s.resets + 1 := rfl

end Sys2Proof.Machine
end

