-- ==== Sys2Proof/Laws/Memory.lean ====
section
/-! SUPPORT. PBUF: reading after writing, and the canonical form (20_memory.md R50 to R54). -/

namespace Sys2Proof.Machine

@[simp] theorem memGet_nil (a : Nat) : memGet [] a = none := rfl

theorem Memory.wf_nil : Memory.wf [] := by simp [Memory.wf]

/-- A written address reads as the byte written. -/
@[simp] theorem memGet_memPut_same (m : List Host.Cell) (a : Nat) (b : Byte) : memGet (memPut m a b) a = some b := by
  induction m with
  | nil => simp [memPut, memGet]
  | cons c rest ih =>
    unfold memPut
    split
    · simp [memGet]
    · split
      · simp [memGet]
      · have hne : c.1 ≠ a := by omega
        simp [memGet, hne, ih]

/-- Every other address reads as before. -/
theorem memGet_memPut_other (m : List Host.Cell) {a a' : Nat} (b : Byte) (h : a' ≠ a) :
    memGet (memPut m a b) a' = memGet m a' := by
  induction m with
  | nil => simp [memPut, memGet, Ne.symm h]
  | cons c rest ih =>
    unfold memPut
    split
    · simp [memGet, Ne.symm h]
    · split
      · next _ heq => simp [memGet, Ne.symm h, ← heq]
      · simp [memGet, ih]

/-- Reading after a write, in one equation. -/
theorem memGet_memPut (m : List Host.Cell) (a a' : Nat) (b : Byte) :
    memGet (memPut m a b) a' = if a' = a then some b else memGet m a' := by
  split
  · next h => rw [h, memGet_memPut_same]
  · next h => exact memGet_memPut_other m b h

/-- The addresses listed after a write. -/
theorem mem_memPut {m : List Host.Cell} {a : Nat} {b : Byte} {c : Host.Cell} (h : c ∈ memPut m a b) :
    c = (a, b) ∨ c ∈ m := by
  induction m with
  | nil => simpa [memPut] using h
  | cons d rest ih =>
    unfold memPut at h
    split at h
    · simpa using h
    · split at h
      · simp only [List.mem_cons] at h ⊢
        exact h.imp_right Or.inr
      · simp only [List.mem_cons] at h ⊢
        rcases h with h | h
        · exact Or.inr (Or.inl h)
        · exact (ih h).imp_right Or.inr

/-- A write keeps the canonical form. -/
theorem Memory.wf_memPut {m : List Host.Cell} (hm : Memory.wf m) {a : Nat} (ha : a < Config.maxPayload) (b : Byte) :
    Memory.wf (memPut m a b) := by
  refine ⟨?_, ?_⟩
  · replace hm := hm.1
    induction m with
    | nil => simp [memPut]
    | cons c rest ih =>
      obtain ⟨hc, hrest⟩ := List.pairwise_cons.1 hm
      unfold memPut
      split
      · next hlt =>
        refine List.pairwise_cons.2 ⟨fun d hd => ?_, hm⟩
        rcases List.mem_cons.1 hd with rfl | hd
        · exact hlt
        · exact lt_trans hlt (hc d hd)
      · split
        · next heq => exact List.pairwise_cons.2 ⟨fun d hd => by simpa [heq] using hc d hd, hrest⟩
        · refine List.pairwise_cons.2 ⟨fun d hd => ?_, ih hrest⟩
          rcases mem_memPut hd with rfl | hd
          · simp only; omega
          · exact hc d hd
  · intro c hc
    rcases mem_memPut hc with rfl | hc
    · exact ha
    · exact hm.2 c hc

/-- An unlisted address is one no entry names. -/
theorem memGet_eq_none {m : List Host.Cell} {a : Nat} (h : ∀ c ∈ m, c.1 ≠ a) : memGet m a = none := by
  induction m with
  | nil => rfl
  | cons c rest ih =>
    simp only [List.mem_cons, forall_eq_or_imp] at h
    simp [memGet, h.1, ih h.2]

@[simp] theorem memRead_length (s : State) (addr n : Nat) : (memRead s addr n).length = n := by simp [memRead]

theorem memRead_getElem (s : State) (addr n i : Nat) (h : i < (memRead s addr n).length) :
    (memRead s addr n)[i] = readPbuf s (addr + i) := by simp [memRead]

@[simp] theorem memRead_zero (s : State) (addr : Nat) : memRead s addr 0 = [] := rfl

theorem memRead_succ (s : State) (addr n : Nat) : memRead s addr (n + 1) = memRead s addr n ++ [readPbuf s (addr + n)] := by
  simp [memRead, List.range_succ]

theorem memRead_prefix (s : State) (addr m n : Nat) (h : m ≤ n) : (memRead s addr n).take m = memRead s addr m := by
  simp [memRead, ← List.map_take, List.take_range, Nat.min_eq_left h]

/-- What a cell reads as depends on PBUF and the epoch alone. -/
theorem readPbuf_congr {s t : State} {a : Nat} (hp : memGet t.pbuf a = memGet s.pbuf a) (hr : t.resets = s.resets) :
    readPbuf t a = readPbuf s a := by simp [readPbuf, hp, hr]

theorem memRead_congr {s t : State} {addr n : Nat} (hp : t.pbuf = s.pbuf) (hr : t.resets = s.resets) :
    memRead t addr n = memRead s addr n := by simp [memRead, readPbuf, hp, hr]

/-- PBUF after `MemWrite` (R16): the written cell reads as the byte, every other cell as before. -/
theorem readPbuf_putPbuf (s : State) (a a' : Nat) (b : Byte) :
    readPbuf (s.putPbuf a b) a' = if a' = a then b else readPbuf s a' := by
  simp only [readPbuf, State.putPbuf_pbuf, State.putPbuf_resets, memGet_memPut]
  split <;> rfl

/-- A read that stops short of the written address is unchanged. -/
theorem memRead_putPbuf (s : State) (n a : Nat) (b : Byte) (h : n ≤ a) :
    memRead (s.putPbuf a b) 0 n = memRead s 0 n := by
  refine List.map_congr_left fun i hi => ?_
  have : i < n := List.mem_range.1 hi
  rw [readPbuf_putPbuf, if_neg (by omega)]

end Sys2Proof.Machine
end

