-- ==== Sys2Proof/Laws/Sequencer.lean ====
section
/-! SUPPORT. One lemma per shared operation of the sequencer, which says what it does; proofs cite these and unfold none. -/

namespace Sys2Proof.Machine

variable (s : State)

/-! ## Receiving a byte (R188): one equation per route -/

theorem route_hdr {k : Nat} (h : k < 8) : route k = .hdr ⟨k, h⟩ := by simp [route, h]

theorem route_csum {k : Nat} (h : k < 4) : route (k + 8) = .csum ⟨k, h⟩ := by
  have h1 : ¬ k + 8 < 8 := by omega
  have h2 : k + 8 < 12 := by omega
  simp [route, h2]

theorem route_pbuf {k : Nat} (h : k < 65535) : route (k + 12) = .pbuf ⟨k, h⟩ := by
  have h1 : ¬ k + 12 < 8 := by omega
  have h2 : k + 12 < 65547 := by omega
  simp [route, h1, h2]

theorem route_drop {k : Nat} (h : 65547 ≤ k) : route k = .drop := by
  have h1 : ¬ k < 8 := by omega
  have h2 : ¬ k < 12 := by omega
  have h3 : ¬ k < 65547 := by omega
  simp [route, h1, h2, h3]

theorem receiveByte_hdr (b : Byte) (i : Fin 8) (h : s.rxcnt.toNat = i) :
    receiveByte s b = (((s.putHdr i b).putCrc (crcUpdate s.crc b)).putRxcnt (i + 1)).quiet := by
  have hi := i.isLt
  simp only [receiveByte, h, route_hdr hi, storeByte, Config.rxcntSat]
  rw [Nat.min_eq_left (by omega)]

theorem receiveByte_csum (b : Byte) (i : Fin 4) (h : s.rxcnt.toNat = i + 8) :
    receiveByte s b = ((s.putCsum i b).putRxcnt (i + 9)).quiet := by
  have hi := i.isLt
  simp only [receiveByte, h, route_csum hi, storeByte, Config.rxcntSat]
  rw [Nat.min_eq_left (by omega)]

theorem receiveByte_pbuf (b : Byte) (a : Fin 65535) (h : s.rxcnt.toNat = a + 12) :
    receiveByte s b = (((s.putPbuf a b).putCrc (crcUpdate s.crc b)).putRxcnt (a + 13)).quiet := by
  have ha := a.isLt
  simp only [receiveByte, h, route_pbuf ha, storeByte, Config.rxcntSat]
  rw [Nat.min_eq_left (by omega)]

theorem receiveByte_drop (b : Byte) (h : 65547 ≤ s.rxcnt.toNat) :
    receiveByte s b = (s.putRxcnt Config.rxcntSat).quiet := by
  simp only [receiveByte, route_drop h, storeByte, Config.rxcntSat]
  rw [Nat.min_eq_right (by omega)]

/-- The counter after a byte (R26). -/
theorem receiveByte_rxcnt (b : Byte) :
    (receiveByte s b).rxcnt.toNat = min (s.rxcnt.toNat + 1) 65548 := by
  simp only [receiveByte, State.quiet_rxcnt, State.putRxcnt_rxcnt, BitVec.toNat_ofNat, Config.rxcntSat]
  omega

/-- What receiving a byte never touches: the session state, the pins, what remains to be presented (R188). -/
theorem receiveByte_frame (b : Byte) :
    (receiveByte s b).state = s.state ∧ (receiveByte s b).lav = s.lav ∧ (receiveByte s b).lab = s.lab ∧
    (receiveByte s b).cfgSrc = s.cfgSrc ∧ (receiveByte s b).cfgDst = s.cfgDst ∧
    (receiveByte s b).ackSrcPort = s.ackSrcPort ∧ (receiveByte s b).ackDstPort = s.ackDstPort ∧
    (receiveByte s b).inputs = s.inputs ∧ (receiveByte s b).resets = s.resets ∧
    (receiveByte s b).out = Out.none ∧ (receiveByte s b).fsmOut = none := by
  simp only [receiveByte]
  cases route s.rxcnt.toNat <;> simp [storeByte]

/-! ## The transition and the transaction (R190) -/

/-- `execute` row by row is R151's parametric form. -/
theorem execute_eq (st : FsmState) (ev : Event) :
    execute st ev = match ev with
      | .allFine => ⟨.deliver, flipState st⟩
      | .isCorrupt => ⟨.ignore, st⟩
      | .wrongAlternating => ⟨.resend, st⟩ := by cases st <;> cases ev <;> rfl

/-- Resend's ACK (R177). -/
theorem actionAck_resend (cfg : Config.Cfg) (e : Bit) :
    actionAck cfg .resend e s = if s.lav then some (sessionAck cfg s s.lab) else none := by
  cases h : s.lav <;> simp [actionAck, actionAckBit, h]

/-- AllFine: the payload is delivered and the old expected bit acknowledged (R152, R153, R176). -/
theorem transition_allFine (cfg : Config.Cfg) (st : FsmState) (p : Option (List Byte)) :
    transition cfg st .allFine p s =
      { s with state := flipState st, lav := true, lab := expectedBit st,
               out := { ack := some (sessionAck cfg s (expectedBit st)), deliver := p, status := none },
               fsmOut := some ⟨.deliver, flipState st⟩ } := by
  cases st <;> rfl

/-- IsCorrupt: nothing (R154, R155, R178). -/
theorem transition_isCorrupt (cfg : Config.Cfg) (st : FsmState) (p : Option (List Byte)) :
    transition cfg st .isCorrupt p s =
      { s with state := st, out := Out.none, fsmOut := some ⟨.ignore, st⟩ } := by
  cases st <;> rfl

/-- WrongAlternating: the last ACK again, if there is one (R156, R157, R177). -/
theorem transition_wrongAlternating (cfg : Config.Cfg) (st : FsmState) (p : Option (List Byte)) :
    transition cfg st .wrongAlternating p s =
      { s with state := st,
               out := { ack := if s.lav then some (sessionAck cfg s s.lab) else none, deliver := none, status := none },
               fsmOut := some ⟨.resend, st⟩ } := by
  cases st <;> (simp only [transition, execute, actionAck_resend]; rfl)

/-- Classification, by cases (R130, R131): exactly one of four. -/
theorem classifyWith_cases (ok : Fields → Bool) (rx : RxView) (e : Bit) :
    (∃ c, decodeView rx = .error c ∧ classifyWith ok rx e = ⟨.isCorrupt, .malformed, some c, none⟩) ∨
    (∃ r, decodeView rx = .ok r ∧ ok r = false ∧ classifyWith ok rx e = ⟨.isCorrupt, .checksumMismatch, none, none⟩) ∨
    (∃ r, decodeView rx = .ok r ∧ ok r = true ∧ r.seq ≠ e ∧
      classifyWith ok rx e = ⟨.wrongAlternating, .sequenceMismatch, none, none⟩) ∨
    (∃ r, decodeView rx = .ok r ∧ ok r = true ∧ r.seq = e ∧
      classifyWith ok rx e = ⟨.allFine, .noError, none, some r.payload⟩) := by
  unfold classifyWith
  cases hd : decodeView rx with
  | error c => exact Or.inl ⟨c, rfl, rfl⟩
  | ok r =>
    refine Or.inr ?_
    cases hok : ok r with
    | false => exact Or.inl ⟨r, rfl, hok, by simp [hok, raiseError, errorEvent]⟩
    | true =>
      refine Or.inr ?_
      by_cases hseq : r.seq = e
      · exact Or.inr ⟨r, rfl, hok, hseq, by simp [hok, bitMatch, hseq]⟩
      · exact Or.inl ⟨r, rfl, hok, hseq, by simp [hok, bitMatch, hseq, raiseError, errorEvent]⟩

/-- Two checksum comparisons that agree on what is decoded classify alike. -/
theorem classifyWith_congr {ok ok' : Fields → Bool} {rx : RxView} (e : Bit)
    (h : ∀ r, decodeView rx = .ok r → ok r = ok' r) : classifyWith ok rx e = classifyWith ok' rx e := by
  unfold classifyWith
  cases hd : decodeView rx with
  | error c => rfl
  | ok r => simp only [h r hd]

/-- What the transaction never touches: the scratch registers, PBUF, the latched ports, the pins, the epoch (R190). -/
theorem processWith_frame (cfg : Config.Cfg) (ok : Fields → Bool) (rx : RxView) :
    let t := processWith cfg ok rx s
    t.hdr = s.hdr ∧ t.csum = s.csum ∧ t.crc = s.crc ∧ t.rxcnt = s.rxcnt ∧ t.pbuf = s.pbuf ∧
    t.cfgSrc = s.cfgSrc ∧ t.cfgDst = s.cfgDst ∧ t.ackSrcPort = s.ackSrcPort ∧ t.ackDstPort = s.ackDstPort ∧
    t.inputs = s.inputs ∧ t.resets = s.resets := by
  simp only [processWith, transition]
  cases (execute s.state (classifyWith ok rx (expectedBit s.state)).event).action <;> simp [actionLastAck]

/-- The transaction, by cases (R190, R199): what the session state and the outputs become. -/
theorem processWith_cases (cfg : Config.Cfg) (ok : Fields → Bool) (rx : RxView) :
    (∃ c, decodeView rx = .error c ∧
      processWith cfg ok rx s = { s with
        out := { ack := none, deliver := none, status := some ⟨.isCorrupt, .ignore, .malformed, some c⟩ },
        fsmOut := some ⟨.ignore, s.state⟩ }) ∨
    (∃ r, decodeView rx = .ok r ∧ ok r = false ∧
      processWith cfg ok rx s = { s with
        out := { ack := none, deliver := none, status := some ⟨.isCorrupt, .ignore, .checksumMismatch, none⟩ },
        fsmOut := some ⟨.ignore, s.state⟩ }) ∨
    (∃ r, decodeView rx = .ok r ∧ ok r = true ∧ r.seq ≠ expectedBit s.state ∧
      processWith cfg ok rx s = { s with
        out := { ack := if s.lav then some (sessionAck cfg s s.lab) else none, deliver := none,
                 status := some ⟨.wrongAlternating, .resend, .sequenceMismatch, none⟩ },
        fsmOut := some ⟨.resend, s.state⟩ }) ∨
    (∃ r, decodeView rx = .ok r ∧ ok r = true ∧ r.seq = expectedBit s.state ∧
      processWith cfg ok rx s = { s with
        state := flipState s.state, lav := true, lab := expectedBit s.state,
        out := { ack := some (sessionAck cfg s (expectedBit s.state)), deliver := some r.payload,
                 status := some ⟨.allFine, .deliver, .noError, none⟩ },
        fsmOut := some ⟨.deliver, flipState s.state⟩ }) := by
  rcases classifyWith_cases ok rx (expectedBit s.state) with ⟨c, hd, hv⟩ | ⟨r, hd, hok, hv⟩ | ⟨r, hd, hok, hs, hv⟩ |
    ⟨r, hd, hok, hs, hv⟩
  · refine Or.inl ⟨c, hd, ?_⟩
    simp only [processWith, hv, transition_isCorrupt, execute_eq]; rfl
  · refine Or.inr (Or.inl ⟨r, hd, hok, ?_⟩)
    simp only [processWith, hv, transition_isCorrupt, execute_eq]; rfl
  · refine Or.inr (Or.inr (Or.inl ⟨r, hd, hok, hs, ?_⟩))
    simp only [processWith, hv, transition_wrongAlternating, execute_eq]; rfl
  · refine Or.inr (Or.inr (Or.inr ⟨r, hd, hok, hs, ?_⟩))
    simp only [processWith, hv, transition_allFine, execute_eq]; rfl

/-! ## The end of a datagram and a whole one (R189, R92) -/

/-- RXE clears the counter and the CRC, and touches nothing else beside what the transaction does (R189). -/
theorem endDatagram_frame :
    (endDatagram s).rxcnt = 0 ∧ (endDatagram s).crc = crcInit ∧ (endDatagram s).hdr = s.hdr ∧
    (endDatagram s).csum = s.csum ∧ (endDatagram s).pbuf = s.pbuf ∧ (endDatagram s).cfgSrc = s.cfgSrc ∧
    (endDatagram s).cfgDst = s.cfgDst ∧ (endDatagram s).ackSrcPort = s.ackSrcPort ∧
    (endDatagram s).ackDstPort = s.ackDstPort ∧ (endDatagram s).inputs = s.inputs ∧ (endDatagram s).resets = s.resets := by
  obtain ⟨h1, h2, -, -, h5, h6, h7, h8, h9, h10, h11⟩ :=
    processWith_frame s isoHdlc (registerChecksumOk s) (rxView s)
  simp [endDatagram, h1, h2, h5, h6, h7, h8, h9, h10, h11]

theorem endDatagram_eq :
    endDatagram s = { processWith isoHdlc (registerChecksumOk s) (rxView s) s with rxcnt := 0, crc := crcInit } := rfl

/-- RXE reports the event of what has been received, the action of its row and no other outputs than that action's (R190). -/
theorem endDatagram_out :
    ∃ st, (endDatagram s).out.status = some st ∧ st.event = receivedEvent s ∧
      st.action = (execute s.state (receivedEvent s)).action ∧
      (endDatagram s).out.ack = (emittedAckBit s).map (sessionAck isoHdlc s) :=
  ⟨_, rfl, rfl, rfl, rfl⟩

/-- RXE, by cases, with the event the FSM reads in it (R189, R199). -/
theorem endDatagram_cases :
    (∃ c, decodeView (rxView s) = .error c ∧ receivedEvent s = .isCorrupt ∧
      endDatagram s = { s with
        rxcnt := 0, crc := crcInit, fsmOut := some ⟨.ignore, s.state⟩,
        out := ⟨none, none, some ⟨.isCorrupt, .ignore, .malformed, some c⟩⟩ }) ∨
    (∃ r, decodeView (rxView s) = .ok r ∧ crcFinal s.crc ≠ r.claimed ∧ receivedEvent s = .isCorrupt ∧
      endDatagram s = { s with
        rxcnt := 0, crc := crcInit, fsmOut := some ⟨.ignore, s.state⟩,
        out := ⟨none, none, some ⟨.isCorrupt, .ignore, .checksumMismatch, none⟩⟩ }) ∨
    (∃ r, decodeView (rxView s) = .ok r ∧ crcFinal s.crc = r.claimed ∧ r.seq ≠ expectedBit s.state ∧
      receivedEvent s = .wrongAlternating ∧
      endDatagram s = { s with
        rxcnt := 0, crc := crcInit, fsmOut := some ⟨.resend, s.state⟩,
        out := ⟨if s.lav then some (sessionAck isoHdlc s s.lab) else none, none,
                some ⟨.wrongAlternating, .resend, .sequenceMismatch, none⟩⟩ }) ∨
    (∃ r, decodeView (rxView s) = .ok r ∧ crcFinal s.crc = r.claimed ∧ r.seq = expectedBit s.state ∧
      receivedEvent s = .allFine ∧
      endDatagram s = { s with
        state := flipState s.state, lav := true, lab := expectedBit s.state, rxcnt := 0, crc := crcInit,
        fsmOut := some ⟨.deliver, flipState s.state⟩,
        out := ⟨some (sessionAck isoHdlc s (expectedBit s.state)), some r.payload,
                some ⟨.allFine, .deliver, .noError, none⟩⟩ }) := by
  have hev : (endDatagram s).out.status.map Status.event = some (receivedEvent s) := rfl
  rcases processWith_cases s isoHdlc (registerChecksumOk s) (rxView s) with ⟨c, hd, he⟩ | ⟨r, hd, hk, he⟩ |
    ⟨r, hd, hk, hs, he⟩ | ⟨r, hd, hk, hs, he⟩ <;> rw [endDatagram_eq, he] at hev ⊢ <;>
    simp only [Option.map_some, Option.some.injEq] at hev
  · exact .inl ⟨c, hd, hev.symm, rfl⟩
  · exact .inr (.inl ⟨r, hd, by simpa [registerChecksumOk] using hk, hev.symm, rfl⟩)
  · exact .inr (.inr (.inl ⟨r, hd, by simpa [registerChecksumOk] using hk, hs, hev.symm, rfl⟩))
  · exact .inr (.inr (.inr ⟨r, hd, by simpa [registerChecksumOk] using hk, hs, hev.symm, rfl⟩))

theorem receiveDatagram_nil : receiveDatagram [] s = endDatagram s := rfl

theorem receiveDatagram_cons (b : Byte) (d : List Byte) :
    receiveDatagram (b :: d) s = receiveDatagram d (receiveByte s b) := rfl

/-- Receiving bytes leaves the session state, the pins and what remains to be presented alone. -/
theorem receiveBytes_frame (d : List Byte) :
    let t := d.foldl receiveByte s
    t.state = s.state ∧ t.lav = s.lav ∧ t.lab = s.lab ∧ t.cfgSrc = s.cfgSrc ∧ t.cfgDst = s.cfgDst ∧
    t.ackSrcPort = s.ackSrcPort ∧ t.ackDstPort = s.ackDstPort ∧ t.inputs = s.inputs ∧ t.resets = s.resets := by
  induction d generalizing s with
  | nil => simp
  | cons b d ih =>
    obtain ⟨h1, h2, h3, h4, h5, h6, h7, h8, h9, -, -⟩ := receiveByte_frame s b
    simpa only [List.foldl_cons, h1, h2, h3, h4, h5, h6, h7, h8, h9] using ih (receiveByte s b)

/-- A whole datagram, from any state: between datagrams after it; the latched ports, the pins, what remains to be presented and
the epoch are left alone. -/
theorem receiveDatagram_frame (d : List Byte) :
    let t := receiveDatagram d s
    t.rxcnt = 0 ∧ t.crc = crcInit ∧ t.cfgSrc = s.cfgSrc ∧ t.cfgDst = s.cfgDst ∧ t.ackSrcPort = s.ackSrcPort ∧
    t.ackDstPort = s.ackDstPort ∧ t.inputs = s.inputs ∧ t.resets = s.resets := by
  obtain ⟨h1, h2, -, -, -, h6, h7, h8, h9, h10, h11⟩ := endDatagram_frame (d.foldl receiveByte s)
  obtain ⟨-, -, -, g4, g5, g6, g7, g8, g9⟩ := receiveBytes_frame s d
  exact ⟨h1, h2, h6.trans g4, h7.trans g5, h8.trans g6, h9.trans g7, h10.trans g8, h11.trans g9⟩

/-- Receiving a byte keeps PBUF canonical. -/
theorem receiveByte_memoryWf (b : Byte) (h : Memory.wf s.pbuf) : Memory.wf (receiveByte s b).pbuf := by
  simp only [receiveByte]
  cases route s.rxcnt.toNat with
  | pbuf a => simpa [storeByte] using Memory.wf_memPut h a.isLt b
  | _ => simpa [storeByte] using h

end Sys2Proof.Machine
end

