-- ==== Sys2Proof/Laws/Receive.lean ====
section
/-! SUPPORT. What the scratch registers hold while a datagram is received: the received view and the covered bytes grow by the
byte presented (41_parser.md R121, R122; 40_crc.md R105). -/

namespace Sys2Proof.Machine

variable (s : State)

/-- The stored bytes at the first `n` offsets of the datagram in progress (R51, R121). -/
def storedBytes (n : Nat) : List Byte :=
  s.hdr.toList.take n ++ s.csum.toList.take (n - 8) ++ memRead s 0 (n - 12)

/-- A vector written at index `n` holds its first `n` entries and the new one. -/
theorem take_set_succ {m : Nat} (v : Vector Byte m) (i : Fin m) (b : Byte) :
    (v.set i b).toList.take (i + 1) = v.toList.take i ++ [b] := by
  have hi := i.isLt
  rw [Vector.toList_set, List.take_succ_eq_append_getElem (by simp), List.take_set_of_le (Nat.le_refl _)]
  simp

theorem take_vector_of_le {m n : Nat} (v : Vector Byte m) (h : m ≤ n) : v.toList.take n = v.toList :=
  List.take_of_length_le (by simpa using h)

/-- RXVIEW while the counter is in range (R121). -/
theorem rxView_of_lt (h : s.rxcnt.toNat < 65548) : rxView s = .bytes (storedBytes s s.rxcnt.toNat) := by
  exact if_neg (Nat.not_le.2 h)

/-- RXVIEW of a saturated counter (R121). -/
theorem rxView_of_ge (h : 65548 ≤ s.rxcnt.toNat) : rxView s = .overlong := by
  exact if_pos h

/-- A byte presented at a storable offset is appended to the stored bytes (R122). -/
theorem storedBytes_receiveByte (b : Byte) (h : s.rxcnt.toNat < 65547) :
    storedBytes (receiveByte s b) (s.rxcnt.toNat + 1) = storedBytes s s.rxcnt.toNat ++ [b] := by
  rcases Nat.lt_or_ge s.rxcnt.toNat 8 with h8 | h8
  · rw [receiveByte_hdr s b ⟨_, h8⟩ rfl]
    have e := take_set_succ s.hdr ⟨_, h8⟩ b
    simp only at e
    have z1 : s.rxcnt.toNat + 1 - 8 = 0 := by omega
    have z2 : s.rxcnt.toNat + 1 - 12 = 0 := by omega
    have z3 : s.rxcnt.toNat - 8 = 0 := by omega
    have z4 : s.rxcnt.toNat - 12 = 0 := by omega
    simp [storedBytes, e, z1, z2, z3, z4]
  · rcases Nat.lt_or_ge s.rxcnt.toNat 12 with h12 | h12
    · obtain ⟨i, hi⟩ : ∃ i : Fin 4, s.rxcnt.toNat = i + 8 := ⟨⟨s.rxcnt.toNat - 8, by omega⟩, by simp only; omega⟩
      rw [receiveByte_csum s b i hi]
      have e := take_set_succ s.csum i b
      have z1 : s.rxcnt.toNat + 1 - 8 = i + 1 := by omega
      have z2 : s.rxcnt.toNat + 1 - 12 = 0 := by omega
      have z3 : s.rxcnt.toNat - 8 = i := by omega
      have z4 : s.rxcnt.toNat - 12 = 0 := by omega
      simp only [storedBytes, State.quiet_hdr, State.putRxcnt_hdr, State.putCsum_hdr, State.quiet_csum, State.putRxcnt_csum,
        State.putCsum_csum, z1, z2, z3, z4, e, memRead_zero, List.append_nil, ← List.append_assoc,
        take_vector_of_le s.hdr h8, take_vector_of_le s.hdr (Nat.le_succ_of_le h8)]
    · obtain ⟨a, ha⟩ : ∃ a : Fin 65535, s.rxcnt.toNat = a + 12 := ⟨⟨s.rxcnt.toNat - 12, by omega⟩, by simp only; omega⟩
      rw [receiveByte_pbuf s b a ha]
      have z1 : s.rxcnt.toNat + 1 - 12 = a + 1 := by omega
      have z2 : s.rxcnt.toNat - 12 = a := by omega
      have hc : (((s.putPbuf a b).putCrc (crcUpdate s.crc b)).putRxcnt (a + 13)).quiet.pbuf = (s.putPbuf a b).pbuf := rfl
      have hm (n : Nat) : memRead (((s.putPbuf a b).putCrc (crcUpdate s.crc b)).putRxcnt (a + 13)).quiet 0 n
          = memRead (s.putPbuf a b) 0 n := memRead_congr rfl rfl
      have e : memRead (s.putPbuf a b) 0 (a + 1) = memRead s 0 a ++ [b] := by
        rw [memRead_succ, memRead_putPbuf s a a b (Nat.le_refl _), Nat.zero_add, readPbuf_putPbuf, if_pos rfl]
      simp only [storedBytes, hm, State.quiet_hdr, State.putRxcnt_hdr, State.putCrc_hdr, State.putPbuf_hdr, State.quiet_csum,
        State.putRxcnt_csum, State.putCrc_csum, State.putPbuf_csum, z1, z2, e, ← List.append_assoc,
        take_vector_of_le s.hdr (show 8 ≤ s.rxcnt.toNat by omega), take_vector_of_le s.hdr (show 8 ≤ s.rxcnt.toNat + 1 by omega),
        take_vector_of_le s.csum (show 4 ≤ s.rxcnt.toNat - 8 by omega),
        take_vector_of_le s.csum (show 4 ≤ s.rxcnt.toNat + 1 - 8 by omega)]

/-- A byte presented at an offset that is not stored changes no stored byte (R120). -/
theorem coveredBytes_receiveByte_drop (b : Byte) (h : 65547 ≤ s.rxcnt.toNat) :
    coveredBytes (receiveByte s b) = coveredBytes s := by
  rw [receiveByte_drop s b h]
  have hm (n : Nat) : memRead (s.putRxcnt Config.rxcntSat).quiet 0 n = memRead s 0 n := memRead_congr rfl rfl
  have e : ((s.putRxcnt Config.rxcntSat).quiet.rxcnt).toNat = 65548 := rfl
  simp only [coveredBytes, hm, e, State.quiet_hdr, State.putRxcnt_hdr, Config.maxPayload,
    take_vector_of_le s.hdr (show 8 ≤ s.rxcnt.toNat by omega), take_vector_of_le s.hdr (show 8 ≤ 65548 by omega)]
  congr 2
  omega

/-- The covered bytes are the stored ones without offsets 8 to 11 (R105, R110). -/
theorem coveredBytes_eq (h : s.rxcnt.toNat ≤ 65547) :
    coveredBytes s = (storedBytes s s.rxcnt.toNat).take 8 ++ (storedBytes s s.rxcnt.toNat).drop 12 := by
  have hm : min (s.rxcnt.toNat - 12) 65535 = s.rxcnt.toNat - 12 := by omega
  simp only [coveredBytes, storedBytes, Config.maxPayload, hm]
  rcases Nat.lt_or_ge s.rxcnt.toNat 12 with h12 | h12
  · have z : s.rxcnt.toNat - 12 = 0 := by omega
    simp only [z, memRead_zero, List.append_nil]
    rw [List.drop_eq_nil_of_le (by simp; omega)]
    rcases Nat.lt_or_ge s.rxcnt.toNat 8 with h8 | h8
    · have z3 : s.rxcnt.toNat - 8 = 0 := by omega
      simp [z3, List.take_take, Nat.min_eq_right (Nat.le_of_lt h8)]
    · rw [take_vector_of_le s.hdr h8, List.take_append_of_le_length (by simp), take_vector_of_le s.hdr (Nat.le_refl 8)]
      simp
  · rw [take_vector_of_le s.hdr (show 8 ≤ s.rxcnt.toNat by omega), take_vector_of_le s.csum (show 4 ≤ s.rxcnt.toNat - 8 by omega),
      List.append_assoc, List.take_append_of_le_length (by simp), take_vector_of_le s.hdr (Nat.le_refl 8)]
    congr 1
    rw [← List.append_assoc, List.drop_append_of_le_length (by simp), List.drop_eq_nil_of_le (by simp), List.nil_append]

@[simp] theorem storedBytes_length (n : Nat) : (storedBytes s n).length = min n 8 + min (n - 8) 4 + (n - 12) := by
  simp [storedBytes, Nat.add_assoc]

/-- The counter after a byte presented at a storable offset. -/
theorem receiveByte_rxcnt_succ (b : Byte) (h : s.rxcnt.toNat < 65548) :
    (receiveByte s b).rxcnt.toNat = s.rxcnt.toNat + 1 := by
  rw [receiveByte_rxcnt]; omega

/-- The running register folds in a byte at a covered offset and stands still elsewhere (R188). -/
theorem receiveByte_crc (b : Byte) :
    (receiveByte s b).crc =
      if s.rxcnt.toNat < 8 ∨ 12 ≤ s.rxcnt.toNat ∧ s.rxcnt.toNat < 65547 then crcUpdate s.crc b else s.crc := by
  simp only [receiveByte, route]
  split
  · simp [storeByte, *]
  · split
    · next h8 h12 =>
      rw [if_neg (by omega)]; simp [storeByte]
    · split
      · next h8 h12 hp => rw [if_pos (by omega)]; simp [storeByte]
      · next h8 h12 hp => rw [if_neg (by omega)]; simp [storeByte]

/-- The covered bytes grow exactly where the running register does (R105). -/
theorem coveredBytes_receiveByte (b : Byte) (h : s.rxcnt.toNat < 65547) :
    coveredBytes (receiveByte s b) =
      if s.rxcnt.toNat < 8 ∨ 12 ≤ s.rxcnt.toNat then coveredBytes s ++ [b] else coveredBytes s := by
  have hn := receiveByte_rxcnt_succ s b (by omega)
  rw [coveredBytes_eq _ (by omega), coveredBytes_eq s (by omega), hn, storedBytes_receiveByte s b h]
  have hl : (storedBytes s s.rxcnt.toNat).length = s.rxcnt.toNat := by simp; omega
  generalize storedBytes s s.rxcnt.toNat = d at hl
  rw [← hl]
  split
  · next hc =>
    rcases hc with h8 | h12
    · rw [List.take_of_length_le (by simp; omega), List.take_of_length_le (by omega), List.drop_eq_nil_of_le (by simp; omega),
        List.drop_eq_nil_of_le (by omega), List.append_nil, List.append_nil]
    · rw [List.take_append_of_le_length (by omega), List.drop_append_of_le_length (by omega), List.append_assoc]
  · next hc =>
    rw [List.take_append_of_le_length (by omega), List.drop_eq_nil_of_le (by simp; omega),
      List.drop_eq_nil_of_le (by omega)]

/-- The running register keeps tracking the covered bytes (R105). -/
theorem receiveByte_crcTracks (b : Byte) (h : Inv.CrcTracks s) : Inv.CrcTracks (receiveByte s b) := by
  unfold Inv.CrcTracks at h ⊢
  rw [receiveByte_crc]
  rcases Nat.lt_or_ge s.rxcnt.toNat 65547 with hp | hp
  · rw [coveredBytes_receiveByte s b hp]
    by_cases hc : s.rxcnt.toNat < 8 ∨ 12 ≤ s.rxcnt.toNat
    · rw [if_pos (by omega), if_pos hc, crcRegister_concat, ← h]
    · rw [if_neg (by omega), if_neg hc, ← h]
  · rw [if_neg (by omega), coveredBytes_receiveByte_drop s b hp, ← h]

/-- Receiving all the bytes of a datagram from offset 0 (R122): the stored bytes are the datagram's, and the counter is its
size, saturated. -/
theorem receiveBytes_stored (d : List Byte) (h0 : s.rxcnt = 0) :
    (d.foldl receiveByte s).rxcnt.toNat = min d.length 65548 ∧
    (d.length ≤ 65547 → storedBytes (d.foldl receiveByte s) d.length = d) := by
  induction d using List.reverseRecOn with
  | nil => simp [h0, storedBytes]
  | append_singleton d b ih =>
    obtain ⟨ih1, ih2⟩ := ih
    rw [List.foldl_append, List.foldl_cons, List.foldl_nil]
    refine ⟨?_, fun hle => ?_⟩
    · rw [receiveByte_rxcnt, ih1, List.length_append]; simp; omega
    · simp only [List.length_append, List.length_cons, List.length_nil] at hle ⊢
      have hn : (d.foldl receiveByte s).rxcnt.toNat = d.length := by rw [ih1]; omega
      have := storedBytes_receiveByte (d.foldl receiveByte s) b (by omega)
      rw [hn, ih2 (by omega)] at this
      simpa using this

/-- RXVIEW once a whole datagram has been presented from offset 0 (R122). -/
theorem rxView_receiveBytes (d : List Byte) (h0 : s.rxcnt = 0) : rxView (d.foldl receiveByte s) = datagramView d := by
  obtain ⟨h1, h2⟩ := receiveBytes_stored s d h0
  unfold datagramView Config.maxFrame
  split
  · next h =>
    have hn : (d.foldl receiveByte s).rxcnt.toNat = d.length := by rw [h1]; omega
    rw [rxView_of_lt _ (by omega), hn, h2 h]
  · next h => rw [rxView_of_ge _ (by omega)]

end Sys2Proof.Machine
end

