-- ==== Sys2Proof/Laws/Invariant.lean ====
section
/-! SUPPORT. Each shared operation keeps the invariant, and in a state of the invariant the running register judges a datagram
as the recomputed checksum does. -/

namespace Sys2Proof.Machine

/-- What the checksum of a decoded datagram covers (R109, R110). -/
theorem decodeFields_covered {d : List Byte} {r : Fields} (h : decodeFields d = .ok r) :
    r.header ++ r.payload = d.take 8 ++ d.drop 12 := by
  rcases Nat.lt_or_ge d.length 12 with hl | hl
  · rw [decodeFields_short hl] at h; cases h
  · obtain ⟨src, dst, seq, flag, len, csum, p, rfl⟩ := eq_dataPrefix_append hl
    rw [decodeFields_prefix] at h
    split at h
    · cases h
    · split at h
      · cases h
      · cases h; rfl

/-- Where the running register tracks the covered bytes, its comparison is the recomputed checksum's (R105, R106). -/
theorem registerChecksumOk_eq_batch {s : State} (h : Inv.CrcTracks s) (r : Fields) (hr : decodeView (rxView s) = .ok r) :
    registerChecksumOk s r = batchChecksumOk isoHdlc r := by
  rcases Nat.lt_or_ge s.rxcnt.toNat 65548 with hn | hn
  · rw [rxView_of_lt s hn] at hr
    have e := decodeFields_covered hr
    rw [← coveredBytes_eq s (by omega)] at e
    simp only [registerChecksumOk, batchChecksumOk, computeChecksum, isoHdlc, e, crc32]
    rw [show s.crc = _ from h]
  · rw [rxView_of_ge s hn] at hr; cases hr

/-- The transaction depends on the checksum comparison only for what is decoded. -/
theorem processWith_congr {cfg : Config.Cfg} {ok ok' : Fields → Bool} {rx : RxView} (s : State)
    (h : ∀ r, decodeView rx = .ok r → ok r = ok' r) : processWith cfg ok rx s = processWith cfg ok' rx s := by
  simp only [processWith, classifyWith_congr _ h]

/-- Receiving a byte keeps the invariant. -/
theorem receiveByte_inv {s : State} (b : Byte) (h : Inv s) : Inv (receiveByte s b) where
  countInRange := by unfold Inv.CountInRange; rw [receiveByte_rxcnt, Config.rxcntSat]; omega
  memoryWf := receiveByte_memoryWf s b h.memoryWf
  sessionLegal := by
    obtain ⟨h1, h2, h3, -⟩ := receiveByte_frame s b
    simpa [Inv.SessionLegal, h1, h2, h3] using h.sessionLegal
  crcTracks := receiveByte_crcTracks s b h.crcTracks
  payloadWritten := by
    have hp := h.payloadWritten
    unfold Inv.PayloadWritten Config.minFrame Config.maxPayload at hp ⊢
    intro a ha
    rw [receiveByte_rxcnt] at ha
    rcases Nat.lt_or_ge s.rxcnt.toNat 12 with h12 | h12
    · omega
    · rcases Nat.lt_or_ge s.rxcnt.toNat 65547 with hs | hs
      · rw [receiveByte_pbuf s b ⟨s.rxcnt.toNat - 12, by omega⟩ (by simp only; omega)]
        simp only [State.quiet_pbuf, State.putRxcnt_pbuf, State.putCrc_pbuf, State.putPbuf_pbuf, memGet_memPut]
        split
        · rfl
        · exact hp a (by omega)
      · rw [receiveByte_drop s b hs]
        exact hp a (by omega)

theorem receiveBytes_inv (d : List Byte) {s : State} (h : Inv s) : Inv (d.foldl receiveByte s) := by
  induction d generalizing s with
  | nil => exact h
  | cons b d ih => exact ih (receiveByte_inv b h)

/-- The transaction keeps the session legal (R32). -/
theorem processWith_sessionLegal (cfg : Config.Cfg) (ok : Fields → Bool) (rx : RxView) {s : State}
    (h : Inv.SessionLegal s) : Inv.SessionLegal (processWith cfg ok rx s) := by
  rcases processWith_cases s cfg ok rx with ⟨c, -, e⟩ | ⟨r, -, -, e⟩ | ⟨r, -, -, -, e⟩ | ⟨r, -, -, -, e⟩ <;> rw [e]
  · exact h
  · exact h
  · exact h
  · cases hs : s.state <;> simp [Inv.SessionLegal, flipState, expectedBit]

/-- A state between datagrams satisfies the invariant when its PBUF is canonical and its session legal. -/
theorem inv_of_betweenDatagrams {s : State} (h : BetweenDatagrams s) (hm : Memory.wf s.pbuf) (hs : Inv.SessionLegal s) :
    Inv s where
  countInRange := by simp [Inv.CountInRange, h.1]
  memoryWf := hm
  sessionLegal := hs
  crcTracks := by simp [Inv.CrcTracks, coveredBytes, h.1, h.2]
  payloadWritten := by simp [Inv.PayloadWritten, h.1]

theorem endDatagram_inv {s : State} (h : Inv s) : Inv (endDatagram s) := by
  obtain ⟨h1, h2, -, -, h5, -⟩ := endDatagram_frame s
  exact inv_of_betweenDatagrams ⟨h1, h2⟩ (h5 ▸ h.memoryWf)
    (processWith_sessionLegal isoHdlc (registerChecksumOk s) (rxView s) h.sessionLegal)

theorem receiveDatagram_inv (d : List Byte) {s : State} (h : Inv s) : Inv (receiveDatagram d s) :=
  endDatagram_inv (receiveBytes_inv d h)

/-- The invariant depends on the scratch registers, PBUF and the session state alone. -/
theorem inv_of_same {s t : State} (h : Inv s) (e1 : t.hdr = s.hdr) (e2 : t.crc = s.crc) (e3 : t.rxcnt = s.rxcnt)
    (e4 : t.pbuf = s.pbuf) (e5 : t.resets = s.resets) (hs : Inv.SessionLegal t) : Inv t where
  countInRange := by simpa [Inv.CountInRange, e3] using h.countInRange
  memoryWf := by simpa [e4] using h.memoryWf
  sessionLegal := hs
  crcTracks := by
    have : coveredBytes t = coveredBytes s := by simp only [coveredBytes, e1, e3, memRead_congr e4 e5]
    unfold Inv.CrcTracks; rw [e2, this]; exact h.crcTracks
  payloadWritten := by simpa [Inv.PayloadWritten, e3, e4] using h.payloadWritten

/-- Outputs and the FSM's answer are no part of the invariant. -/
theorem quiet_inv {s : State} (h : Inv s) : Inv s.quiet := inv_of_same h rfl rfl rfl rfl rfl h.sessionLegal

theorem putAnswer_inv {s : State} (r : FsmOut) (h : Inv s) : Inv (s.putAnswer r) :=
  inv_of_same h rfl rfl rfl rfl rfl h.sessionLegal

/-- An FSM-IN word keeps the invariant. -/
theorem fsmStep_inv {s : State} (st : FsmState) (ev : Event) (h : Inv s) : Inv (fsmStep st ev s) := by
  unfold fsmStep
  split
  · exact endDatagram_inv h
  · exact putAnswer_inv _ (quiet_inv h)

/-- An ACK word keeps the invariant. -/
theorem ackStep_inv {s : State} (b : Bit) (h : Inv s) : Inv (ackStep b s) := by
  unfold ackStep
  split
  · exact endDatagram_inv h
  · exact quiet_inv h

/-- What the FSM-IN word of STATE and an event code decodes to (R89). -/
theorem decodeFsm_fsmWord (st : FsmState) (e : BitVec 2) :
    decodeFsm (fsmWord st e) =
      match st, e with
      | .waitForZero, 0 => .ok .fsmZAllFine
      | .waitForOne, 0 => .ok .fsmOAllFine
      | .waitForZero, 1 => .ok .fsmZIsCorrupt
      | .waitForOne, 1 => .ok .fsmOIsCorrupt
      | .waitForZero, 2 => .ok .fsmZWrongAlt
      | .waitForOne, 2 => .ok .fsmOWrongAlt
      | _, _ => .error .reservedEvent := by cases st <;> revert e <;> decide

/-- The outputs of the step before have no effect on receiving a byte (R187). -/
theorem receiveByte_quiet (s : State) (b : Byte) : receiveByte s.quiet b = receiveByte s b := by
  simp only [receiveByte]
  cases h : route s.rxcnt.toNat <;> simp [storeByte, h] <;> rfl

/-- Presenting bytes with any NOPs among them: the scratch registers are those of the bytes alone, and nothing is output
(R122, R187). -/
theorem runExec_bytesAndNops (ops : List Instr) (s : State) (h : BytesAndNops ops) :
    ∃ t outs, runExec ops s = .next (t, outs) ∧ t.quiet = ((presentedBytes ops).foldl receiveByte s).quiet ∧
      outs.length = ops.length ∧ ∀ o ∈ outs, o = Out.none := by
  induction ops generalizing s with
  | nil => exact ⟨s, [], rfl, rfl, rfl, by simp⟩
  | cons i ops ih =>
    have hr : BytesAndNops ops := fun j hj => h j (List.mem_cons_of_mem _ hj)
    rcases h i List.mem_cons_self with ⟨b, rfl⟩ | ⟨x, rfl⟩
    · obtain ⟨t, outs, h1, h2, h3, h4⟩ := ih (receiveByte s b) hr
      refine ⟨t, (receiveByte s b).out :: outs, by simp only [runExec, exec, execRxb, h1], h2, by simp [h3], ?_⟩
      intro o ho
      rcases List.mem_cons.1 ho with rfl | ho
      · obtain ⟨-, -, -, -, -, -, -, -, -, ho, -⟩ := receiveByte_frame s b
        exact ho
      · exact h4 o ho
    · obtain ⟨t, outs, h1, h2, h3, h4⟩ := ih s.quiet hr
      refine ⟨t, s.quiet.out :: outs, by simp only [runExec, exec, execNop, h1], ?_, by simp [h3], ?_⟩
      · rw [h2]
        show _ = ((presentedBytes ops).foldl receiveByte s).quiet
        cases presentedBytes ops with
        | nil => rfl
        | cons b d => simp only [List.foldl_cons, receiveByte_quiet]
      · intro o ho
        rcases List.mem_cons.1 ho with rfl | ho
        · rfl
        · exact h4 o ho

end Sys2Proof.Machine
end

