-- ==== Sys2Proof/Laws/PerInstr.lean ====
section
/-! SUPPORT. For every instruction: its encoding is a word of its row of spec/opcode_table.json. -/

namespace Sys2Proof.Laws.RowMatch

/- One theorem after another: many at once can need more threads than the check allows. -/
set_option Elab.async false

/-- The table word of an instruction's encoding has its row's width, and its row's value under its row's mask. -/
def Statement (i : Instr) : Prop :=
  tableWord (encode i) &&& (opcodeRow i).mask = (opcodeRow i).value ∧ tableWord (encode i) < 2 ^ (opcodeRow i).width

/-- A mask of `m` ones from bit `k` up picks out those bits. -/
theorem and_mask (n m k : Nat) : n &&& ((2 ^ m - 1) <<< k) = (n / 2 ^ k % 2 ^ m) * 2 ^ k := by
  rw [← Nat.shiftLeft_eq]
  apply Nat.eq_of_testBit_eq
  intro i
  simp only [Nat.testBit_and, Nat.testBit_shiftLeft, Nat.testBit_two_pow_sub_one, Nat.testBit_mod_two_pow,
    Nat.testBit_div_two_pow]
  by_cases h : k ≤ i
  · have e : i - k + k = i := by omega
    by_cases h2 : i - k < m <;> simp [h, h2, e]
  · simp [h]

/-- The command word as a number (R80). -/
theorem cmdWord_toNat (r : BitVec 1) (cmd : BitVec 2) (data : Byte) :
    (cmdWord r cmd data).toNat = 1024 * r.toNat + 256 * cmd.toNat + data.toNat := by
  have h : (cmdWord r cmd data).toNat = 2 ^ 8 * (2 ^ 2 * r.toNat + cmd.toNat) + data.toNat := by
    rw [← append_toNat, ← append_toNat]; rfl
  omega

/-- The word `A` as a number (R76). -/
theorem ackWord_toNat (src dst : BitVec 16) (seq : Byte) (csum : BitVec 32) :
    (ackWord src dst seq csum).toNat = 2 ^ 32 * (2 ^ 8 * (2 ^ 16 * src.toNat + dst.toNat) + seq.toNat) + csum.toNat := by
  rw [← append_toNat, ← append_toNat, ← append_toNat]; rfl

/-- The table word of a data datagram is its first 12 bytes as the word `W` (R71). -/
theorem tableWord_data (src dst : BitVec 16) (seq flag : Byte) (len : BitVec 16) (csum : BitVec 32) (p : List Byte) :
    tableWord (.data (dataPrefix src dst seq flag len csum ++ p)) =
      2 ^ 64 * (2 ^ 16 * src.toNat + dst.toNat) + 2 ^ 56 * seq.toNat + 2 ^ 48 * flag.toNat + 2 ^ 32 * len.toNat
        + csum.toNat := by
  have h1 := src.isLt; have h2 := dst.isLt; have h3 := len.isLt; have h4 := csum.isLt
  simp only [tableWord, dataPrefix, bytesBe16, bytesBe32, List.cons_append, List.nil_append, List.take_succ_cons,
    List.take_zero, List.foldl_cons, List.foldl_nil, extractByte_toNat]
  omega

theorem and_rst (n : Nat) : n &&& 0x400 = (n / 2 ^ 10 % 2 ^ 1) * 2 ^ 10 := and_mask n 1 10
theorem and_cmd (n : Nat) : n &&& 0x700 = (n / 2 ^ 8 % 2 ^ 3) * 2 ^ 8 := and_mask n 3 8
theorem and_dataSeq (n : Nat) : n &&& 0x00000000FF00000000000000 = (n / 2 ^ 56 % 2 ^ 8) * 2 ^ 56 := and_mask n 8 56
theorem and_ackSeq (n : Nat) : n &&& 0x00000000FF00000000 = (n / 2 ^ 32 % 2 ^ 8) * 2 ^ 32 := and_mask n 8 32

/-- The field values the encoder writes, as numbers. -/
theorem fieldValues : (0 : BitVec 1).toNat = 0 ∧ (1 : BitVec 1).toNat = 1 ∧ (0 : BitVec 2).toNat = 0 ∧
    (1 : BitVec 2).toNat = 1 ∧ (2 : BitVec 2).toNat = 2 ∧ (3 : BitVec 2).toNat = 3 ∧ (0 : Byte).toNat = 0 ∧
    (1 : Byte).toNat = 1 := by decide

theorem rst (cmd : BitVec 2) (data : Byte) : Statement (.rst cmd data) := by
  have := cmd.isLt; have := data.isLt
  simp only [Statement, encode, opcodeRow, tableWord, cmdWord_toNat, and_rst, fieldValues]; omega

theorem nop (data : Byte) : Statement (.nop data) := by
  have := data.isLt
  simp only [Statement, encode, opcodeRow, tableWord, cmdWord_toNat, and_cmd, fieldValues]; omega

theorem rxb (b : Byte) : Statement (.rxb b) := by
  have := b.isLt
  simp only [Statement, encode, opcodeRow, tableWord, cmdWord_toNat, and_cmd, fieldValues]; omega

theorem rxe (data : Byte) : Statement (.rxe data) := by
  have := data.isLt
  simp only [Statement, encode, opcodeRow, tableWord, cmdWord_toNat, and_cmd, fieldValues]; omega

theorem cmdRsvd (data : Byte) : Statement (.cmdRsvd data) := by
  have := data.isLt
  simp only [Statement, encode, opcodeRow, tableWord, cmdWord_toNat, and_cmd, fieldValues]; omega

theorem data0 (src dst : BitVec 16) (flag : Byte) (len : BitVec 16) (csum : BitVec 32) (payload : List Byte) :
    Statement (.data0 src dst flag len csum payload) := by
  have := src.isLt; have := dst.isLt; have := flag.isLt; have := len.isLt; have := csum.isLt
  simp only [Statement, encode, opcodeRow, tableWord_data, and_dataSeq, fieldValues]; omega

theorem data1 (src dst : BitVec 16) (flag : Byte) (len : BitVec 16) (csum : BitVec 32) (payload : List Byte) :
    Statement (.data1 src dst flag len csum payload) := by
  have := src.isLt; have := dst.isLt; have := flag.isLt; have := len.isLt; have := csum.isLt
  simp only [Statement, encode, opcodeRow, tableWord_data, and_dataSeq, fieldValues]; omega

theorem ack0 (src dst : BitVec 16) (csum : BitVec 32) : Statement (.ack0 src dst csum) := by
  have := src.isLt; have := dst.isLt; have := csum.isLt
  simp only [Statement, encode, opcodeRow, tableWord, ackWord_toNat, and_ackSeq, fieldValues]; omega

theorem ack1 (src dst : BitVec 16) (csum : BitVec 32) : Statement (.ack1 src dst csum) := by
  have := src.isLt; have := dst.isLt; have := csum.isLt
  simp only [Statement, encode, opcodeRow, tableWord, ackWord_toNat, and_ackSeq, fieldValues]; omega

theorem fsmZAllFine : Statement .fsmZAllFine := by unfold Statement; decide
theorem fsmOAllFine : Statement .fsmOAllFine := by unfold Statement; decide
theorem fsmZIsCorrupt : Statement .fsmZIsCorrupt := by unfold Statement; decide
theorem fsmOIsCorrupt : Statement .fsmOIsCorrupt := by unfold Statement; decide
theorem fsmZWrongAlt : Statement .fsmZWrongAlt := by unfold Statement; decide
theorem fsmOWrongAlt : Statement .fsmOWrongAlt := by unfold Statement; decide

end Sys2Proof.Laws.RowMatch
end

