-- ==== Sys2Proof/Laws/Step.lean ====
section
/-! SUPPORT. What a step can do, by what stands at the inputs. -/

namespace Sys2Proof.Machine

variable {s : State}

/-- Everything a step can do: idle, take a configuration change, execute what is decoded, or do what the block does with a
thing the decoder rejects. -/
theorem step_cases :
    (s.inputs = [] ∧ step s = .next (idleStep s)) ∨
    (∃ src dst rest, s.inputs = .config src dst :: rest ∧ step s = .next (configStep src dst (taken s))) ∨
    (∃ e i, fetch s = .word e ∧ decode e = .ok i ∧ step s = exec i (taken s)) ∨
    (∃ e c, fetch s = .word e ∧ decode e = .error c ∧ step s = reject e (taken s)) := by
  cases hi : s.inputs with
  | nil => exact .inl ⟨rfl, by simp [step, fetch, hi]⟩
  | cons x rest =>
    have hw : ∀ e, fetch s = .word e →
        (∃ e i, fetch s = .word e ∧ decode e = .ok i ∧ step s = exec i (taken s)) ∨
        (∃ e c, fetch s = .word e ∧ decode e = .error c ∧ step s = reject e (taken s)) := by
      intro e he
      cases hd : decode e with
      | ok i => exact .inl ⟨e, i, he, hd, by simp only [step, he, hd]⟩
      | error c => exact .inr ⟨e, c, he, hd, by simp only [step, he, hd]⟩
    cases x with
    | config src dst => exact .inr (.inl ⟨src, dst, rest, rfl, by simp [step, fetch, hi]⟩)
    | _ => exact .inr (.inr (hw _ (by simp only [fetch, hi]; rfl)))

end Sys2Proof.Machine
end

