-- ==== Sys2Proof/Tests/Slice0.lean ====
section
/-! SUPPORT. Tests of single steps against the values of 95_test_vectors.md, and for every obligation with hypotheses a
witness that meets them. -/

namespace Sys2Proof.Tests

/- One theorem after another: many evaluations at once need more threads than the check allows. -/
set_option Elab.async false

open Sys2Proof Sys2Proof.Machine

/-! ## The standing configuration and the named datagrams (95_test_vectors.md) -/

/-- The state after RST with the vectors' configuration. -/
def boot : State :=
  { State.reset with cfgSrc := 0x2328, cfgDst := 0x1F90, ackSrcPort := 0x2328, ackDstPort := 0x1F90 }
/-- Session state (WaitForOne, 1, 0). -/
def afterZero : State := { boot with state := .waitForOne, lav := true }
/-- Session state (WaitForZero, 1, 1). -/
def afterOne : State := { boot with lav := true, lab := true }
/-- Another state with the session of `boot`, its scratch registers differing. -/
def oldScratch : State := { boot with hdr := Vector.replicate 8 0xAA, csum := Vector.replicate 4 0x55, pbuf := [(7, 1)] }
/-- A state with one thing presented. -/
def presenting (i : Input) (s : State) : State := { s with inputs := [i] }
/-- A state that has received the bytes `d`. -/
def holding (d : List Byte) (s : State) : State := d.foldl receiveByte s
/-- A state whose counter reads `k`. -/
def counting (k : Nat) : State := { boot with rxcnt := BitVec.ofNat 17 k }

def p1 : List Byte := [0x1F, 0x90, 0x23, 0x28, 0x00, 0x00, 0x00, 0x02, 0x7B, 0x5B, 0x2A, 0xFC, 0x48, 0x69]
def p2 : List Byte := [0x1F, 0x90, 0x23, 0x28, 0x01, 0x00, 0x00, 0x01, 0xC7, 0x48, 0x81, 0x0A, 0x21]
def p3 : List Byte := [0x1F, 0x90, 0x23, 0x28, 0x00, 0x00, 0x00, 0x00, 0x5F, 0xF8, 0x99, 0x8F]
def p8 : List Byte := [0x1F, 0x90, 0x23, 0x28, 0x02, 0x00, 0x00, 0x02, 0x36, 0x93, 0x8B, 0xF7, 0x48, 0x69]
def p9 : List Byte := [0x1F, 0x90, 0x23, 0x28, 0x01, 0x00, 0x00, 0x02, 0xB0, 0x07, 0xF9, 0x59, 0x48, 0x69]
def x1 : List Byte := [0x1F, 0x90, 0x23, 0x28, 0x00, 0x00, 0x00, 0x02, 0x7B, 0x5B, 0x2A, 0x03, 0x48, 0x69]
def ackBytes0 : List Byte := [0x23, 0x28, 0x1F, 0x90, 0x00, 0x43, 0xFE, 0x4B, 0x4F]
def ackBytes1 : List Byte := [0x23, 0x28, 0x1F, 0x90, 0x01, 0x34, 0xF9, 0x7B, 0xD9]

/-- The next state of an outcome. -/
def after (o : Host.Outcome State Fault Refusal) : State :=
  match o with
  | .next t => t
  | .fault _ => boot
  | .refused _ => boot

/-! ## WellFormed -/

theorem test_illFormed_data0 : ¬ WellFormed (.data0 0x1F90 0x2328 0 2 0x7B5B2AFC [0x48]) := by decide
theorem test_illFormed_data1 : ¬ WellFormed (.data1 0x1F90 0x2328 0 1 0xC748810A [0x21, 0x21]) := by decide

/-! ## Decoding: a word of each constructor, written out from the spec -/

/-- 95_test_vectors.md section 2.7. -/
theorem test_decode_rst : decode (.cmd 0x400#11) = .ok (.rst 0 0) := by decide
theorem test_decode_nop : decode (.cmd 0x000#11) = .ok (.nop 0) := by decide
theorem test_decode_rxb : decode (.cmd 0x1FF#11) = .ok (.rxb 0xFF) := by decide
theorem test_decode_rxe : decode (.cmd 0x200#11) = .ok (.rxe 0) := by decide
theorem test_decode_cmdRsvd : decode (.cmd 0x3FF#11) = .ok (.cmdRsvd 0xFF) := by decide
/-- Section 2.3, P1 and P9. -/
theorem test_decode_data0 : decode (.data p1) = .ok (.data0 0x1F90 0x2328 0 2 0x7B5B2AFC [0x48, 0x69]) := by decide
theorem test_decode_data1 : decode (.data p9) = .ok (.data1 0x1F90 0x2328 0 2 0xB007F959 [0x48, 0x69]) := by decide
/-- Section 2.5, the fifth configuration. -/
theorem test_decode_ack0 : decode (.ack 0x00010002004CA8F2FA#72) = .ok (.ack0 1 2 0x4CA8F2FA) := by decide
theorem test_decode_ack1 : decode (.ack 0x00010002013BAFC26C#72) = .ok (.ack1 1 2 0x3BAFC26C) := by decide
/-- Section 2.4. -/
theorem test_decode_fsmZAllFine : decode (.fsm 0b000#3) = .ok .fsmZAllFine := by decide
theorem test_decode_fsmOAllFine : decode (.fsm 0b100#3) = .ok .fsmOAllFine := by decide
theorem test_decode_fsmZIsCorrupt : decode (.fsm 0b001#3) = .ok .fsmZIsCorrupt := by decide
theorem test_decode_fsmOIsCorrupt : decode (.fsm 0b101#3) = .ok .fsmOIsCorrupt := by decide
theorem test_decode_fsmZWrongAlt : decode (.fsm 0b010#3) = .ok .fsmZWrongAlt := by decide
theorem test_decode_fsmOWrongAlt : decode (.fsm 0b110#3) = .ok .fsmOWrongAlt := by decide
/-- Section 2.2: what is no encoding. -/
theorem test_decode_short : decode (.data (p1.take 11)) = .error (.malformed .short) := by decide
theorem test_decode_trailing : decode (.data (p3 ++ [0])) = .error (.malformed .length) := by decide
theorem test_decode_seqRange : decode (.data p8) = .error (.malformed .seqRange) := by decide
theorem test_decode_noAck : decode (.ack 0x23281F900243FE4B4F#72) = .error .notAnAck := by decide
theorem test_decode_reserved : decode (.fsm 0b011#3) = .error .reservedEvent := by decide
/-- Section 2.2: big-endian field reads. -/
theorem test_payloadLength : extractPayloadLength [0x1F, 0x90, 0x23, 0x28, 0x00, 0x00, 0x01, 0x00] = 256 := by decide

/-! ## The checksum (section 2.1) -/

theorem test_crcUpdate : crcUpdate 0xDEADBEEF 0x42 = 0xA8B972EB := by decide +kernel
theorem test_crc32_abc : crc32 [0x61, 0x62, 0x63] = 0x352441C2 := by decide +kernel

/-! ## Single steps -/

/-- Section 2.7, RST from (WaitForOne, 1, 0) with five bytes received. -/
theorem test_rst : (after (exec (.rst 0 0) (holding (p1.take 5) afterZero))).state = .waitForZero ∧
    (after (exec (.rst 0 0) (holding (p1.take 5) afterZero))).rxcnt = 0 := by decide +kernel
theorem test_rst_samples_ports :
    (after (exec (.rst 3 0xFF) { boot with ackSrcPort := 1, ackDstPort := 2 })).cfgSrc = 1 ∧
    (after (exec (.rst 3 0xFF) { boot with ackSrcPort := 1, ackDstPort := 2 })).cfgDst = 2 := by decide +kernel
theorem test_nop : (after (exec (.nop 0xA5) (holding (p1.take 5) boot))).rxcnt = 5 := by decide +kernel
theorem test_cmdRsvd : (after (exec (.cmdRsvd 1) (holding (p1.take 5) boot))).rxcnt = 5 := by decide +kernel
/-- Section 2.1's trace: offset 8 is not covered; section 2.7. -/
theorem test_rxb_csum :
    let t := after (exec (.rxb 0x7B) (holding (p1.take 8) boot))
    t.csum[0] = 0x7B ∧ t.crc = 0x4E09075C ∧ t.rxcnt = 9 := by decide +kernel
theorem test_rxb_pbuf :
    let t := after (exec (.rxb 0x48) (holding (p1.take 12) boot))
    t.pbuf = [(0, 0x48)] ∧ t.crc = 0x1A94DD7A ∧ t.rxcnt = 13 := by decide +kernel
/-- Section 2.7, RXE on P1 and on nothing. -/
theorem test_rxe_p1 :
    let t := after (exec (.rxe 0) (holding p1 boot))
    t.out = ⟨some ackBytes0, some [0x48, 0x69], some ⟨.allFine, .deliver, .noError, none⟩⟩ ∧ t.state = .waitForOne ∧
      t.lav = true ∧ t.lab = false ∧ t.rxcnt = 0 ∧ t.crc = 0xFFFFFFFF := by decide +kernel
theorem test_rxe_empty :
    let t := after (exec (.rxe 0xFF) afterZero)
    t.out = ⟨none, none, some ⟨.isCorrupt, .ignore, .malformed, some .short⟩⟩ ∧ t.state = .waitForOne := by decide +kernel
/-- Program 2 step 2, and section 2.5's X1. -/
theorem test_data0_duplicate :
    (after (exec (.data0 0x1F90 0x2328 0 2 0x7B5B2AFC [0x48, 0x69]) afterZero)).out =
      ⟨some ackBytes0, none, some ⟨.wrongAlternating, .resend, .sequenceMismatch, none⟩⟩ := by decide +kernel
theorem test_data0_x1 :
    (after (exec (.data0 0x1F90 0x2328 0 2 0x7B5B2A03 [0x48, 0x69]) boot)).out =
      ⟨none, none, some ⟨.isCorrupt, .ignore, .checksumMismatch, none⟩⟩ := by decide +kernel
/-- Program 2 step 4, and Program 3 step 1. -/
theorem test_data1 :
    let t := after (exec (.data1 0x1F90 0x2328 0 1 0xC748810A [0x21]) afterZero)
    t.out = ⟨some ackBytes1, some [0x21], some ⟨.allFine, .deliver, .noError, none⟩⟩ ∧ t.state = .waitForZero ∧
      t.lab = true := by decide +kernel
theorem test_data1_nothing_sent_yet :
    (after (exec (.data1 0x1F90 0x2328 0 2 0xB007F959 [0x48, 0x69]) boot)).out =
      ⟨none, none, some ⟨.wrongAlternating, .resend, .sequenceMismatch, none⟩⟩ := by decide +kernel
/-- Section 2.5, in the RXE step that acknowledges; and R180: with nothing received no ACK leaves the framer. -/
theorem test_ack0 : (after (exec (.ack0 0 0 0) (holding p1 boot))).out.ack = some ackBytes0 ∧
    (after (exec (.ack0 0 0 0) boot)).out.ack = none := by decide +kernel
theorem test_ack1 : (after (exec (.ack1 0 0 0) (holding p2 { afterZero with cfgSrc := 0xFFFF, cfgDst := 0xFFFF }))).out.ack =
    some [0xFF, 0xFF, 0xFF, 0xFF, 0x01, 0x88, 0xF8, 0xCF, 0x69] := by decide +kernel
/-- Section 2.4's rows, on datagrams of section 2.3 that give the event, with section 2.5's emission per action. -/
theorem test_fsmZAllFine :
    let t := after (exec .fsmZAllFine (holding p1 boot))
    t.fsmOut = some ⟨.deliver, .waitForOne⟩ ∧ t.state = .waitForOne ∧ t.out.ack = some ackBytes0 ∧
      t.out.deliver = some [0x48, 0x69] := by decide +kernel
theorem test_fsmOAllFine :
    let t := after (exec .fsmOAllFine (holding p2 afterZero))
    t.fsmOut = some ⟨.deliver, .waitForZero⟩ ∧ t.state = .waitForZero ∧ t.out.ack = some ackBytes1 ∧ t.lab = true := by
  decide +kernel
theorem test_fsmZIsCorrupt :
    let t := after (exec .fsmZIsCorrupt (holding x1 afterOne))
    t.fsmOut = some ⟨.ignore, .waitForZero⟩ ∧ t.out.ack = none ∧ t.state = .waitForZero := by decide +kernel
theorem test_fsmOIsCorrupt :
    let t := after (exec .fsmOIsCorrupt afterZero)
    t.fsmOut = some ⟨.ignore, .waitForOne⟩ ∧ t.out.ack = none ∧ t.state = .waitForOne := by decide +kernel
theorem test_fsmZWrongAlt :
    let t := after (exec .fsmZWrongAlt (holding p9 boot))
    t.fsmOut = some ⟨.resend, .waitForZero⟩ ∧ t.out.ack = none ∧ t.out.deliver = none := by decide +kernel
theorem test_fsmOWrongAlt :
    let t := after (exec .fsmOWrongAlt (holding p1 afterZero))
    t.fsmOut = some ⟨.resend, .waitForOne⟩ ∧ t.out.ack = some ackBytes0 ∧ t.state = .waitForOne := by decide +kernel
/-- R39: an AllFine word with nothing received delivers nothing. -/
theorem test_fsmZAllFine_nothing_received : (after (exec .fsmZAllFine oldScratch)).out = Out.none := by decide +kernel
/-- R18: the ACK trace is the bits. -/
theorem test_ackTrace : ackTrace [⟨some ackBytes0, none, none⟩, Out.none, ⟨some ackBytes1, none, none⟩] = [false, true] := by
  decide
/-- A step takes the word at the inputs: section 2.7's `RXB 0x1F = 0x11F`. -/
theorem test_step_fetches : (after (step (State.reset.withFetchWord 11 0x11F))).rxcnt = 1 ∧
    (after (step (State.reset.withFetchWord 11 0x11F))).crc = 0xA0F51D87 := by decide +kernel
/-- A placed word of each inner format runs: section 2.4 rows 2 and 5, and ACK1's word. -/
theorem test_step_fsm : (after (step (State.reset.withFetchWord 3 4))).fsmOut = some ⟨.deliver, .waitForZero⟩ ∧
    (after (step (State.reset.withFetchWord 3 2))).out.status = some ⟨.wrongAlternating, .resend, .sequenceMismatch, none⟩ := by
  decide +kernel
theorem test_step_ack : ackTrace [(after (step (State.reset.withFetchWord 72 0x000000000100000000))).out] = [true] := by
  decide +kernel
/-- Program 4 step 6: an ACK arriving at the data input. -/
theorem test_step_ack_at_input : (after (step (presenting (.datagram ackBytes0) boot))).out.status =
    some ⟨.isCorrupt, .ignore, .malformed, some .short⟩ := by decide +kernel
/-- Section 2.6: the sequence bit of P1 flipped is never a sequence mismatch. -/
theorem test_step_flip32 : (after (step (presenting (.datagram (flipBit 32 p1)) afterZero))).out.status =
    some ⟨.isCorrupt, .ignore, .checksumMismatch, none⟩ := by decide +kernel
/-- R90: the pins in the step of P1's RXE. -/
theorem test_pins : outPins (after (exec (.rxe 0) (holding p1 boot))).out =
    ⟨true, 0x23281F900043FE4B4F, true, 2, true, 0, 1, 0, 0⟩ := by decide +kernel
/-- R170, R93: section 2.3's P9, made by an honest sender. -/
theorem test_encodeData : encodeData isoHdlc 0x1F90 0x2328 1 0 [0x48, 0x69] = p9 := by decide +kernel

/-! ## Witnesses: for each obligation with hypotheses, a state and operands that meet them together -/

theorem boot_between : BetweenDatagrams boot := ⟨rfl, rfl⟩
theorem afterZero_between : BetweenDatagrams afterZero := ⟨rfl, rfl⟩
theorem afterOne_between : BetweenDatagrams afterOne := ⟨rfl, rfl⟩
theorem boot_legal : Inv.SessionLegal boot := by unfold Inv.SessionLegal; decide
theorem afterZero_legal : Inv.SessionLegal afterZero := by unfold Inv.SessionLegal; decide
theorem afterOne_legal : Inv.SessionLegal afterOne := by unfold Inv.SessionLegal; decide
theorem boot_inv : Inv boot := inv_of_betweenDatagrams boot_between Memory.wf_nil boot_legal
theorem afterZero_inv : Inv afterZero := inv_of_betweenDatagrams afterZero_between Memory.wf_nil afterZero_legal

theorem wit_DecodeOfEncodeIsIdentity : WellFormed (.data0 0x1F90 0x2328 0 2 0x7B5B2AFC [0x48, 0x69]) ∧
    WellFormed (.data1 0x1F90 0x2328 0xFF 0xFFFF 0 (List.replicate 65535 0)) :=
  ⟨by decide, by show (List.replicate 65535 (0 : Byte)).length = _; rw [List.length_replicate]; decide⟩

theorem wit_EncodeOfDecodeIsIdentity : decode (.data p2) = .ok (.data1 0x1F90 0x2328 0 1 0xC748810A [0x21]) := by decide

theorem wit_CommandWordSelectsByPriority :
    (∀ c ∈ [0x400#11, 0x7FF#11], c &&& 0x400 = 0x400) ∧ (∀ c ∈ [0x000#11, 0x0FF#11], c &&& 0x700 = 0x000) ∧
    (∀ c ∈ [0x100#11, 0x1FF#11], c &&& 0x700 = 0x100) ∧ (∀ c ∈ [0x200#11, 0x2FF#11], c &&& 0x700 = 0x200) ∧
    ∀ c ∈ [0x300#11, 0x3FF#11], c &&& 0x700 = 0x300 := by decide +kernel

theorem wit_PlacedTableWordIsExecuted : decodeTableWord 11 0x11F = some (.rxb 0x1F) ∧
    decodeTableWord 3 6 = some .fsmOWrongAlt ∧ decodeTableWord 72 0x23281F900134F97BD9 = some (.ack1 0x2328 0x1F90 0x34F97BD9) ∧
    decodeTableWord 96 0x1F902328000000005FF8998F = some (.data0 0x1F90 0x2328 0 0 0x5FF8998F []) := by decide +kernel

theorem wit_StreamingChecksumEqualsBatch : BetweenDatagrams boot ∧ p1.length ≤ 65547 ∧
    ∃ t outs, runExec (p1.map .rxb) boot = .next (t, outs) ∧ p1.length = 12 + t.lenView.toNat :=
  ⟨boot_between, by decide, holding p1 boot, _, rfl, by decide +kernel⟩
theorem wit_StreamingChecksumEqualsBatch_top : (List.replicate 65547 (0 : Byte)).length ≤ 65547 := List.length_replicate.le

/-- Both ends of P1, and a bit of each of the clauses: length field, sequence byte, the sequence bit itself. -/
theorem wit_EverySingleBitFlipIsDetected : isCorrupt isoHdlc (.bytes p1) = false ∧
    ∀ k ∈ [0, 32, 33, 39, 48, 63, 111], k < 8 * p1.length := by decide +kernel

theorem wit_DecodeTestsStructureInOrder : (p1.take 11).length < 12 ∧
    (12 ≤ (p3 ++ [0]).length ∧ (p3 ++ [0]).length ≠ 12 + (be16 (p3 ++ [0])[6] (p3 ++ [0])[7]).toNat) ∧
    (p8.length = 12 + (be16 p8[6] p8[7]).toNat ∧ 1 < p8[4].toNat) ∧
    (p3.length = 12 + (be16 p3[6] p3[7]).toNat ∧ p3[4].toNat ≤ 1) ∧ (p2.length = 12 + (be16 p2[6] p2[7]).toNat ∧ p2[4].toNat ≤ 1) ∧
    decodeFields [] = .error .short := by decide

/-- A datagram under each clause, in the clauses' order. -/
theorem wit_FirstErrorInOrderIsReported : (p1.take 11).length < 12 ∧
    (p3 ++ [0]).length ≠ 12 + (be16 ((p3 ++ [0]).getD 6 0) ((p3 ++ [0]).getD 7 0)).toNat ∧ 1 < (p8.getD 4 0).toNat ∧
    isoHdlc.crc (x1.take 8 ++ x1.drop 12) ≠ be32 (x1.getD 8 0) (x1.getD 9 0) (x1.getD 10 0) (x1.getD 11 0) ∧
    isoHdlc.crc (p1.take 8 ++ p1.drop 12) = be32 (p1.getD 8 0) (p1.getD 9 0) (p1.getD 10 0) (p1.getD 11 0) ∧
    p1.getD 4 0 ≠ bitByte true ∧ p1.getD 4 0 = bitByte false := by decide +kernel

theorem wit_HonestDatagramRoundTrips : ([] : List Byte).length ≤ 65535 ∧ (List.replicate 65535 (0xFF : Byte)).length ≤ 65535 :=
  ⟨by decide, List.length_replicate.le⟩

theorem bytesAndNops_replicate (n : Nat) : BytesAndNops (List.replicate n (.rxb 0)) :=
  fun _ h => .inl ⟨0, List.eq_of_mem_replicate h⟩
theorem presentedBytes_replicate (n : Nat) : (presentedBytes (List.replicate n (.rxb 0))).length = n := by
  unfold presentedBytes
  induction n with
  | zero => rfl
  | succ n ih => simpa [List.replicate_succ, presentedByte] using ih

/-- The two clauses at the values where they meet, and bytes with a NOP among them. -/
theorem wit_DeserializerKeepsEveryByte : boot.rxcnt = 0 ∧ BytesAndNops (List.replicate 65547 (.rxb 0)) ∧
    (presentedBytes (List.replicate 65547 (.rxb 0))).length ≤ 65547 ∧ BytesAndNops (List.replicate 65548 (.rxb 0)) ∧
    65548 ≤ (presentedBytes (List.replicate 65548 (.rxb 0))).length :=
  ⟨rfl, bytesAndNops_replicate _, (presentedBytes_replicate _).le, bytesAndNops_replicate _, (presentedBytes_replicate _).ge⟩
theorem wit_BytesAndNops : BytesAndNops [.rxb 1, .nop 7, .rxb 2] ∧ presentedBytes [.rxb 1, .nop 7, .rxb 2] = [1, 2] :=
  ⟨by intro i h; simp at h; rcases h with rfl | rfl | rfl <;> simp, rfl⟩

theorem wit_OverlongDatagramIsLengthError :
    BetweenDatagrams (presenting (.datagram (List.replicate 65548 0)) boot) ∧ 65548 ≤ (List.replicate 65548 (0 : Byte)).length ∧
    (presenting (.datagram (List.replicate 65548 0)) boot).inputs = .datagram (List.replicate 65548 0) :: [] :=
  ⟨⟨rfl, rfl⟩, List.length_replicate.ge, rfl⟩

theorem wit_ResetBeginsASession : exec (.rxb 1) afterZero = .next (receiveByte afterZero 1) ∧ afterZero.lav = true ∧
    ∀ cmd data, Instr.rxb 1 ≠ .rst cmd data := ⟨rfl, rfl, by simp⟩

/-- The counters at the ends of the ranges of RxbStoresByCounter. -/
theorem wit_RxbStoresByCounter : ∀ k ∈ [0, 7, 8, 11, 12, 65546, 65547, 65548], (counting k).rxcnt.toNat = k := by decide

/-- Between datagrams, and in the middle of one. -/
theorem wit_RxeIsProcessOnReceivedView : Inv boot ∧ Inv (holding (p1.take 9) afterZero) :=
  ⟨boot_inv, receiveBytes_inv _ afterZero_inv⟩

theorem wit_CounterReturnsToZero : exec (.rxe 0) boot = .next (endDatagram boot) ∧
    exec (.rst 0 0) boot = .next boot.restart ∧ exec (.nop 0) boot = .next boot.quiet := ⟨rfl, rfl, rfl⟩

theorem wit_OutputShape : exec (.rst 0 0) boot = .next boot.restart ∧ exec (.nop 0) boot = .next boot.quiet ∧
    exec (.rxb 1) boot = .next (receiveByte boot 1) ∧ exec (.rxe 0) (holding p1 boot) = .next (endDatagram (holding p1 boot)) :=
  ⟨rfl, rfl, rfl, rfl⟩

theorem wit_DeliveredLengthIsOnThePins : exec (.rxe 0) (holding p1 boot) = .next (endDatagram (holding p1 boot)) ∧
    (endDatagram (holding p1 boot)).out.deliver = some [0x48, 0x69] := ⟨rfl, by decide +kernel⟩

theorem wit_PresentedDatagramIsProcessed : BetweenDatagrams afterZero ∧ BytesAndNops (List.replicate 65548 (.rxb 0)) :=
  ⟨afterZero_between, bytesAndNops_replicate _⟩

theorem wit_DataInstructionsAreProcessed : BetweenDatagrams boot ∧ [(0x48 : Byte), 0x69].length = (2 : BitVec 16).toNat :=
  ⟨boot_between, by decide⟩

/-- P1, in each of the two states. -/
theorem wit_Data0Outcome : (BetweenDatagrams boot ∧ Inv.SessionLegal boot ∧ boot.state = .waitForZero) ∧
    (BetweenDatagrams afterZero ∧ Inv.SessionLegal afterZero ∧ afterZero.state = .waitForOne) ∧
    [(0x48 : Byte), 0x69].length = (2 : BitVec 16).toNat ∧
    0x7B5B2AFC#32 = computeChecksum isoHdlc (bytesBe16 0x1F90 ++ bytesBe16 0x2328 ++ [0, 0] ++ bytesBe16 2) [0x48, 0x69] :=
  ⟨⟨boot_between, boot_legal, rfl⟩, ⟨afterZero_between, afterZero_legal, rfl⟩, by decide, by decide +kernel⟩

/-- P9, in each state, with and without an ACK sent before. -/
theorem wit_Data1Outcome : (BetweenDatagrams afterZero ∧ Inv.SessionLegal afterZero ∧ afterZero.state = .waitForOne) ∧
    (BetweenDatagrams boot ∧ Inv.SessionLegal boot ∧ boot.state = .waitForZero ∧ boot.lav = false) ∧
    (BetweenDatagrams afterOne ∧ Inv.SessionLegal afterOne ∧ afterOne.state = .waitForZero ∧ afterOne.lav = true) ∧
    [(0x48 : Byte), 0x69].length = (2 : BitVec 16).toNat ∧
    0xB007F959#32 = computeChecksum isoHdlc (bytesBe16 0x1F90 ++ bytesBe16 0x2328 ++ [1, 0] ++ bytesBe16 2) [0x48, 0x69] :=
  ⟨⟨afterZero_between, afterZero_legal, rfl⟩, ⟨boot_between, boot_legal, rfl, rfl⟩, ⟨afterOne_between, afterOne_legal, rfl, rfl⟩,
    by decide, by decide +kernel⟩

/-- DataInstructionsCompleteWithTheirFrame: its hypothesis names the two constructors. -/
theorem wit_DataInstructionsCompleteWithTheirFrame :
    (∃ src dst flag len csum, Instr.data0 1 2 3 4 5 [6] = .data0 src dst flag len csum [6]) ∧
    (∃ src dst flag len csum, Instr.data1 1 2 3 4 5 [] = .data1 src dst flag len csum []) ∧
    ((counting 13).rxcnt.toNat = 13 ∧ 0 + 12 < 13 ∧ 13 + 12 + [(6 : Byte)].length ≤ 14 + 12) :=
  ⟨⟨_, _, _, _, _, rfl⟩, ⟨_, _, _, _, _, rfl⟩, by decide⟩

/-- The empty payload and the largest one. -/
theorem wit_DatagramBytesLieWhereTheMapSays : BetweenDatagrams boot ∧ ([] : List Byte).length = (0 : BitVec 16).toNat ∧
    (List.replicate 65535 (0 : Byte)).length = (0xFFFF : BitVec 16).toNat :=
  ⟨boot_between, rfl, by rw [List.length_replicate]; decide⟩

/-- A datagram under each clause of the table. -/
theorem wit_IllegalDatagramsAreCorrupt : BetweenDatagrams afterZero ∧
    ∀ d ∈ [p1.take 11, p3 ++ [0], p8, x1], isCorrupt isoHdlc (.bytes d) = true := ⟨afterZero_between, by decide +kernel⟩

theorem wit_UndecodableDatagramIsReceivedWhole : (presenting (.datagram p8) boot).inputs = .datagram p8 :: [] ∧
    decode (.data p8) = .error (.malformed .seqRange) := ⟨rfl, by decide⟩

theorem wit_AckAtTheInputIsShort : BetweenDatagrams (presenting (.datagram (buildAck isoHdlc 1 2 true)) boot) ∧
    (presenting (.datagram (buildAck isoHdlc 1 2 true)) boot).inputs = .datagram (buildAck isoHdlc 1 2 true) :: [] :=
  ⟨⟨rfl, rfl⟩, rfl⟩

theorem wit_OldScratchInfluencesNoOutput : BetweenDatagrams boot ∧ BetweenDatagrams oldScratch ∧ SameSession boot oldScratch ∧
    oldScratch.ackSrcPort = boot.ackSrcPort ∧ oldScratch.ackDstPort = boot.ackDstPort ∧ oldScratch.pbuf ≠ boot.pbuf :=
  ⟨boot_between, ⟨rfl, rfl⟩, ⟨rfl, rfl, rfl, rfl, rfl⟩, rfl, rfl, by decide⟩

/-- Each word where the FSM reads it, and where it does not. -/
theorem wit_AllFineWordsDeliver : ((holding p1 boot).state = .waitForZero ∧ receivedEvent (holding p1 boot) = .allFine) ∧
    ((holding p2 afterZero).state = .waitForOne ∧ receivedEvent (holding p2 afterZero) = .allFine) ∧
    receivedEvent boot ≠ .allFine := by decide +kernel
theorem wit_IsCorruptWordsDoNothing : (afterOne.state = .waitForZero ∧ receivedEvent afterOne = .isCorrupt) ∧
    ((holding x1 afterZero).state = .waitForOne ∧ receivedEvent (holding x1 afterZero) = .isCorrupt) ∧
    receivedEvent (holding p1 boot) ≠ .isCorrupt := by decide +kernel
/-- With and without an ACK sent before. -/
theorem wit_WrongAlternatingWordsResend :
    ((holding p9 boot).state = .waitForZero ∧ receivedEvent (holding p9 boot) = .wrongAlternating ∧ boot.lav = false) ∧
    ((holding p2 afterOne).state = .waitForZero ∧ receivedEvent (holding p2 afterOne) = .wrongAlternating ∧ afterOne.lav = true) ∧
    ((holding p1 afterZero).state = .waitForOne ∧ receivedEvent (holding p1 afterZero) = .wrongAlternating) ∧
    receivedEvent boot ≠ .wrongAlternating := by decide +kernel
/-- Both ways an ACK of each bit is emitted, and a state that emits none. -/
theorem wit_AckWordsEmitBuildAck :
    (receivedEvent (holding p1 boot) = .allFine ∧ (holding p1 boot).state = stateOfBit false) ∧
    (receivedEvent (holding p1 afterZero) = .wrongAlternating ∧ (holding p1 afterZero).lav = true ∧
      (holding p1 afterZero).lab = false) ∧
    (receivedEvent (holding p2 afterZero) = .allFine ∧ (holding p2 afterZero).state = stateOfBit true) ∧
    (receivedEvent (holding p9 afterOne) = .wrongAlternating ∧ (holding p9 afterOne).lav = true ∧
      (holding p9 afterOne).lab = true) ∧ receivedEvent boot = .isCorrupt := by decide +kernel

theorem wit_CodeValuesAreTheSpecs : exec (.rxe 0) (holding p1 boot) = .next (endDatagram (holding p1 boot)) ∧
    (endDatagram (holding p1 boot)).out.status = some ⟨.allFine, .deliver, .noError, none⟩ := ⟨rfl, by decide +kernel⟩
theorem wit_OutputPinsShowTheOutputs : exec (.rxe 0) (holding p1 boot) = .next (endDatagram (holding p1 boot)) ∧
    (endDatagram (holding p1 boot)).out.ack = some ackBytes0 ∧ (endDatagram (holding p1 boot)).out.deliver = some [0x48, 0x69] :=
  ⟨rfl, by decide +kernel⟩
theorem wit_OutputsOnlyInTheStepOfAnRxe :
    (∃ t, Inv (holding p1 boot) ∧ exec .fsmZAllFine (holding p1 boot) = .next t ∧ t.out.ack.isSome = true) ∧
    ∃ t, Inv (presenting (.datagram p1) boot) ∧ step (presenting (.datagram p1) boot) = .next t ∧
      t.out.deliver.isSome = true :=
  ⟨⟨fsmStep .waitForZero .allFine (holding p1 boot), receiveBytes_inv _ boot_inv, rfl, by decide +kernel⟩,
   ⟨receiveDatagram p1 boot, inv_of_betweenDatagrams ⟨rfl, rfl⟩ Memory.wf_nil boot_legal, rfl, by decide +kernel⟩⟩

theorem wit_ReservedEventActsAsIsCorrupt : (presenting (.event 3) afterZero).inputs = .event 3 :: [] := rfl

/-- P1 in WaitForZero and P2 in WaitForOne. -/
theorem wit_AllFineFlipsAndAcknowledges :
    (∃ t st, exec (.rxe 0) (holding p1 boot) = .next t ∧ t.out.status = some st ∧ st.event = .allFine ∧
      (holding p1 boot).state = .waitForZero) ∧
    ∃ t st, exec (.rxe 0) (holding p2 afterZero) = .next t ∧ t.out.status = some st ∧ st.event = .allFine ∧
      (holding p2 afterZero).state = .waitForOne :=
  ⟨⟨endDatagram (holding p1 boot), ⟨.allFine, .deliver, .noError, none⟩, rfl, by decide +kernel, rfl, by decide +kernel⟩,
   ⟨endDatagram (holding p2 afterZero), ⟨.allFine, .deliver, .noError, none⟩, rfl, by decide +kernel, rfl, by decide +kernel⟩⟩

theorem wit_IsCorruptNeverMutatesSession :
    ∃ t st, exec (.rxe 0) (holding x1 boot) = .next t ∧ t.out.status = some st ∧ st.event = .isCorrupt :=
  ⟨endDatagram (holding x1 boot), ⟨.isCorrupt, .ignore, .checksumMismatch, none⟩, rfl, by decide +kernel, rfl⟩

/-- With an ACK sent before, and without. -/
theorem wit_WrongAlternatingResendsLastAck :
    (∃ t st, exec (.rxe 0) (holding p1 afterZero) = .next t ∧ t.out.status = some st ∧ st.event = .wrongAlternating ∧
      Inv.SessionLegal (holding p1 afterZero) ∧ (holding p1 afterZero).lav = true) ∧
    ∃ t st, exec (.rxe 0) (holding p9 boot) = .next t ∧ t.out.status = some st ∧ st.event = .wrongAlternating ∧
      (holding p9 boot).lav = false :=
  ⟨⟨endDatagram (holding p1 afterZero), ⟨.wrongAlternating, .resend, .sequenceMismatch, none⟩, rfl, by decide +kernel, rfl,
     (receiveBytes_inv _ afterZero_inv).sessionLegal, by decide +kernel⟩,
   ⟨endDatagram (holding p9 boot), ⟨.wrongAlternating, .resend, .sequenceMismatch, none⟩, rfl, by decide +kernel, rfl,
     by decide +kernel⟩⟩

theorem wit_DeliveredUnitsAlternate :
    (∃ st, (process isoHdlc (.bytes p9) boot).out.status = some st ∧ st.event ≠ .allFine) ∧ boot.state = .waitForZero ∧
    deliveredDatagrams [.bytes p1, .bytes p1, .bytes p2] (runDatagrams isoHdlc [.bytes p1, .bytes p1, .bytes p2] boot).2 =
      [.bytes p1, .bytes p2] :=
  ⟨⟨⟨.wrongAlternating, .resend, .sequenceMismatch, none⟩, by decide +kernel, by decide⟩, rfl, by decide +kernel⟩

theorem wit_DuplicateIsReacknowledgedNotRedelivered : (process isoHdlc (.bytes p1) boot).out.deliver.isSome = true := by
  decide +kernel

theorem wit_EveryAckIsOneOfTwo : ∃ t, exec .fsmZAllFine (holding p1 boot) = .next t ∧ t.out.ack = some ackBytes0 :=
  ⟨fsmStep .waitForZero .allFine (holding p1 boot), rfl, by decide +kernel⟩

theorem wit_AcksCarryTheLastAcknowledgedBit : ∃ t, Inv (presenting (.datagram p1) boot) ∧
    step (presenting (.datagram p1) boot) = .next t ∧ t.out.ack = some ackBytes0 :=
  ⟨receiveDatagram p1 boot, inv_of_betweenDatagrams ⟨rfl, rfl⟩ Memory.wf_nil boot_legal, rfl,
    by decide +kernel⟩

/-- One state for each kind of thing presented. -/
theorem wit_StepRunsTheDecodedInstruction :
    (fetch (presenting (.port 0x11F) boot) = .word (.cmd 0x11F) ∧ decode (.cmd 0x11F) = .ok (.rxb 0x1F)) ∧
    (presenting (.datagram p1) boot).inputs = .datagram p1 :: [] ∧ (presenting (.ackWord 0) boot).inputs = .ackWord 0 :: [] ∧
    (presenting (.event 2) boot).inputs = .event 2 :: [] :=
  ⟨⟨rfl, by decide⟩, rfl, rfl, rfl⟩

theorem wit_IdleAndConfigurationSteps : boot.inputs = [] ∧ (presenting (.config 1 2) boot).inputs = .config 1 2 :: [] ∧
    (presenting (.ackWord 0x23281F900243FE4B4F) boot).inputs = .ackWord 0x23281F900243FE4B4F :: [] ∧
    1 < ((0x23281F900243FE4B4F : BitVec 72).extractLsb' 32 8).toNat := ⟨rfl, rfl, rfl, by decide⟩

/-- With a step that does change the latched ports. -/
theorem wit_ConfigurationLatchedOnlyByReset_step : ∃ t, step (presenting (.port 0x400) { boot with ackSrcPort := 7 }) = .next t ∧
    t.cfgSrc ≠ (presenting (.port 0x400) { boot with ackSrcPort := 7 }).cfgSrc :=
  ⟨(taken (presenting (.port 0x400) { boot with ackSrcPort := 7 })).restart, rfl, by decide⟩
theorem wit_ConfigurationLatchedOnlyByReset : exec (.rst 0 0) boot = .next boot.restart ∧
    exec (.rxe 0) boot = .next (endDatagram boot) ∧ ∀ cmd data, Instr.rxe 0 ≠ .rst cmd data := ⟨rfl, rfl, by simp⟩

/-- A byte, presented to the step and executed. -/
theorem wit_EveryStepKeepsTheInvariant : ∃ t, Inv (presenting (.port 0x11F) boot) ∧
    step (presenting (.port 0x11F) boot) = .next t ∧ exec (.rxb 0x1F) boot = .next t :=
  ⟨receiveByte boot 0x1F, inv_of_betweenDatagrams ⟨rfl, rfl⟩ Memory.wf_nil boot_legal, rfl, rfl⟩

end Sys2Proof.Tests
end

/-! # What one operation can do, and the state family's statements (10_state.md)

Fifteen instructions and the rejected encodings come down to six effects. `Reaction` lists them, RST apart; `exec_cases`,
`reject_reaction` and `step_reaction` tie it to the model, and each property of "every operation" is then proved effect by
effect. -/

namespace Sys2Proof.Machine

/-! ## The effects of an operation -/

/-- What an operation other than RST, or an encoding the decoder rejects, does to a state (44_port_operations.md R187 to R193;
logs 9, 13 to 15, 17, 18). -/
inductive Reaction (s : State) : State → Prop
  /-- Nothing but an empty output record. -/
  | quiet : Reaction s s.quiet
  /-- The FSM's answer to a word that is not its input, and no outputs. -/
  | answer (r : FsmOut) : Reaction s (s.quiet.putAnswer r)
  /-- One byte received. -/
  | byte (b : Byte) : Reaction s (receiveByte s b)
  /-- The datagram in progress ended and judged. -/
  | ended : Reaction s (endDatagram s)
  /-- A whole datagram received and judged. -/
  | datagram (d : List Byte) : Reaction s (receiveDatagram d s)

/-- An ACK word is the RXE step or nothing (log 14). -/
theorem ackStep_reaction (b : Bit) (s : State) : Reaction s (ackStep b s) := by
  unfold ackStep
  split
  · exact .ended
  · exact .quiet

/-- An FSM-IN word is the RXE step or shows the FSM's answer (log 15). -/
theorem fsmStep_reaction (st : FsmState) (ev : Event) (s : State) : Reaction s (fsmStep st ev s) := by
  unfold fsmStep
  split
  · exact .ended
  · exact .answer _

/-- Everything an operation can do: RST restarts the session, every other one is a reaction. -/
theorem exec_cases {i : Instr} {s t : State} (h : exec i s = .next t) :
    (∃ cmd data, i = .rst cmd data ∧ t = s.restart) ∨ Reaction s t := by
  cases i with
  | rst cmd data => cases h; exact .inl ⟨cmd, data, rfl, rfl⟩
  | nop | cmdRsvd => cases h; exact .inr .quiet
  | rxb b => cases h; exact .inr (.byte b)
  | rxe => cases h; exact .inr .ended
  | data0 | data1 => cases h; exact .inr (.datagram _)
  | ack0 | ack1 => cases h; exact .inr (ackStep_reaction _ s)
  | fsmZAllFine | fsmOAllFine | fsmZIsCorrupt | fsmOIsCorrupt | fsmZWrongAlt | fsmOWrongAlt =>
    cases h; exact .inr (fsmStep_reaction _ _ s)

/-- What the block does with an encoding the decoder rejects is a reaction. -/
theorem reject_reaction {e : Enc} {s t : State} (h : reject e s = .next t) : Reaction s t := by
  cases e with
  | cmd | ack => cases h; exact .quiet
  | data d => cases h; exact .datagram d
  | fsm => cases h; exact .answer _

/-! ## The effects of a step -/

theorem taken_of_nil {s : State} (h : s.inputs = []) : taken s = s := by
  cases s; cases h; rfl

/-- Only a command word at the port decodes to RST (30_encoding.md R70, R81). -/
theorem decode_eq_rst {e : Enc} {cmd : BitVec 2} {data : Byte} (h : decode e = .ok (.rst cmd data)) : ∃ c, e = .cmd c := by
  cases e with
  | cmd c => exact ⟨c, rfl⟩
  | data d =>
    simp only [decode, decodeData] at h
    split at h
    · cases h
    · split at h <;> cases h
  | ack a =>
    simp only [decode, decodeAck] at h
    split at h
    · cases h
    · split at h <;> cases h
  | fsm f =>
    simp only [decode, decodeFsm] at h
    repeat' split at h
    all_goals cases h

/-- A command word stands at the inputs where it heads what is presented at the port. -/
theorem fetch_eq_cmd {s : State} {c : BitVec 11} (h : fetch s = .word (.cmd c)) : ∃ rest, s.inputs = .port c :: rest := by
  unfold fetch at h
  split at h <;> cases h
  exact ⟨_, ‹_›⟩

/-- Everything a step can do: a change of the configuration inputs, the restart of a presented RST word, or a reaction to what
was taken. -/
theorem step_reaction {s t : State} (h : step s = .next t) :
    (∃ src dst, t = configStep src dst (taken s)) ∨
    (∃ c rest cmd data, s.inputs = .port c :: rest ∧ decode (.cmd c) = .ok (.rst cmd data) ∧ t = (taken s).restart) ∨
    Reaction (taken s) t := by
  rcases step_cases (s := s) with ⟨hi, he⟩ | ⟨src, dst, -, -, he⟩ | ⟨e, i, hf, hd, he⟩ | ⟨e, c, -, -, he⟩ <;> rw [he] at h
  · cases h
    rw [taken_of_nil hi]
    exact .inr (.inr .quiet)
  · cases h
    exact .inl ⟨src, dst, rfl⟩
  · rcases exec_cases h with ⟨cmd, data, rfl, ht⟩ | hr
    · obtain ⟨c, rfl⟩ := decode_eq_rst hd
      obtain ⟨rest, hi⟩ := fetch_eq_cmd hf
      exact .inr (.inl ⟨c, rest, cmd, data, hi, hd, ht⟩)
    · exact .inr (.inr hr)
  · exact .inr (.inr (reject_reaction h))

/-! ## The invariant (10_state.md section 9) -/

theorem Reaction.inv {s t : State} (hr : Reaction s t) (h : Inv s) : Inv t := by
  cases hr with
  | quiet => exact quiet_inv h
  | answer r => exact putAnswer_inv r (quiet_inv h)
  | byte b => exact receiveByte_inv b h
  | ended => exact endDatagram_inv h
  | datagram d => exact receiveDatagram_inv d h

/-- A session that has acknowledged nothing and waits for bit 0 is legal (R32). -/
theorem sessionLegal_of_fresh {s : State} (hst : s.state = .waitForZero) (hv : s.lav = false) (hb : s.lab = false) :
    Inv.SessionLegal s := by
  simp [Inv.SessionLegal, hst, hv, hb]

/-- RST establishes the invariant, whatever state it finds. -/
theorem restart_inv (s : State) : Inv s.restart :=
  inv_of_betweenDatagrams ⟨rfl, rfl⟩ Memory.wf_nil (sessionLegal_of_fresh rfl rfl rfl)

/-- What is presented, and the configuration inputs, are no part of the invariant. -/
theorem taken_inv {s : State} (h : Inv s) : Inv (taken s) := inv_of_same h rfl rfl rfl rfl rfl h.sessionLegal

theorem configStep_inv {s : State} (src dst : BitVec 16) (h : Inv s) : Inv (configStep src dst s) :=
  inv_of_same h rfl rfl rfl rfl rfl h.sessionLegal

theorem exec_inv {i : Instr} {s t : State} (h : Inv s) (he : exec i s = .next t) : Inv t := by
  rcases exec_cases he with ⟨-, -, -, rfl⟩ | hr
  · exact restart_inv s
  · exact hr.inv h

theorem step_inv {s t : State} (h : Inv s) (hs : step s = .next t) : Inv t := by
  rcases step_reaction hs with ⟨src, dst, rfl⟩ | ⟨-, -, -, -, -, -, rfl⟩ | hr
  · exact configStep_inv src dst (taken_inv h)
  · exact restart_inv _
  · exact hr.inv (taken_inv h)

/-- Settles O59: every effect of an operation and of a step keeps the invariant. -/
theorem everyStepKeepsTheInvariant : Obligations.EveryStepKeepsTheInvariant :=
  ⟨fun _ _ => step_inv, fun _ _ _ => exec_inv⟩

/-- Settles O58: after reset the block is between datagrams, in a fresh session, with nothing listed in PBUF. -/
theorem invariantHoldsAtReset : Obligations.InvariantHoldsAtReset :=
  inv_of_betweenDatagrams ⟨rfl, rfl⟩ Memory.wf_nil (sessionLegal_of_fresh rfl rfl rfl)

/-! ## The values at reset and the frame of RXE -/

/-- Settles O57: each value is the one written in `State.reset`. -/
theorem resetStateHasTheSpecsValues : Obligations.ResetStateHasTheSpecsValues :=
  ⟨rfl, rfl, rfl, rfl, rfl, rfl, rfl, rfl, rfl⟩

/-- Settles O21, from the frame of `endDatagram`: a PBUF cell reads by the listed cells and the epoch, which both stay. -/
theorem rxeCompletesWithItsFrame : Obligations.RxeCompletesWithItsFrame := by
  intro s data
  obtain ⟨hrxcnt, hcrc, hhdr, hcsum, hpbuf, hsrc, hdst, hsrcPort, hdstPort, hinputs, hresets⟩ := endDatagram_frame s
  obtain ⟨st, hst, -⟩ := endDatagram_out s
  have hread : ∀ a, readPbuf (endDatagram s) a = readPbuf s a := fun a => readPbuf_congr (by rw [hpbuf]) hresets
  exact ⟨endDatagram s, rfl, by simp [hst], hrxcnt, hcrc, hhdr, hcsum, hpbuf, hread, hsrc, hdst, hsrcPort,
    hdstPort, hinputs, hresets⟩

/-! ## The latched ports (R33) -/

/-- A reaction keeps the latched ports and the configuration inputs. -/
theorem Reaction.ports {s t : State} (hr : Reaction s t) :
    t.cfgSrc = s.cfgSrc ∧ t.cfgDst = s.cfgDst ∧ t.ackSrcPort = s.ackSrcPort ∧ t.ackDstPort = s.ackDstPort := by
  cases hr with
  | quiet | answer => simp
  | byte b =>
    obtain ⟨-, -, -, hsrc, hdst, hsrcPort, hdstPort, -⟩ := receiveByte_frame s b
    exact ⟨hsrc, hdst, hsrcPort, hdstPort⟩
  | ended =>
    obtain ⟨-, -, -, -, -, hsrc, hdst, hsrcPort, hdstPort, -⟩ := endDatagram_frame s
    exact ⟨hsrc, hdst, hsrcPort, hdstPort⟩
  | datagram d =>
    obtain ⟨-, -, hsrc, hdst, hsrcPort, hdstPort, -⟩ := receiveDatagram_frame s d
    exact ⟨hsrc, hdst, hsrcPort, hdstPort⟩

theorem exec_cfg_of_ne_rst {i : Instr} {s t : State} (h : exec i s = .next t) (hi : ∀ cmd data, i ≠ .rst cmd data) :
    t.cfgSrc = s.cfgSrc ∧ t.cfgDst = s.cfgDst := by
  rcases exec_cases h with ⟨cmd, data, rfl, -⟩ | hr
  · exact absurd rfl (hi cmd data)
  · obtain ⟨hsrc, hdst, -, -⟩ := hr.ports
    exact ⟨hsrc, hdst⟩

theorem exec_configurationInputs {i : Instr} {s t : State} (h : exec i s = .next t) :
    t.ackSrcPort = s.ackSrcPort ∧ t.ackDstPort = s.ackDstPort := by
  rcases exec_cases h with ⟨cmd, data, -, rfl⟩ | hr
  · exact ⟨rfl, rfl⟩
  · obtain ⟨-, -, hsrcPort, hdstPort⟩ := hr.ports
    exact ⟨hsrcPort, hdstPort⟩

/-- A step keeps the latched ports, or an RST word stands at the port. -/
theorem step_cfg {s t : State} (h : step s = .next t) :
    (t.cfgSrc = s.cfgSrc ∧ t.cfgDst = s.cfgDst) ∨
    ∃ c rest cmd data, s.inputs = .port c :: rest ∧ decode (.cmd c) = .ok (.rst cmd data) := by
  rcases step_reaction h with ⟨src, dst, rfl⟩ | ⟨c, rest, cmd, data, hi, hd, -⟩ | hr
  · exact .inl ⟨rfl, rfl⟩
  · exact .inr ⟨c, rest, cmd, data, hi, hd⟩
  · obtain ⟨hsrc, hdst, -, -⟩ := hr.ports
    exact .inl ⟨hsrc, hdst⟩

/-- Settles O54: RST loads the two registers, the frames of the other effects keep them, and `buildAck` reads them. -/
theorem configurationLatchedOnlyByReset : Obligations.ConfigurationLatchedOnlyByReset := by
  refine ⟨fun s t cmd data h => ?rst, fun _ _ _ => exec_cfg_of_ne_rst, fun _ _ _ => exec_configurationInputs,
    fun s t h hne => ?step, fun _ _ => rfl⟩
  case rst => cases h; exact ⟨rfl, rfl⟩
  case step =>
    rcases step_cfg h with ⟨hsrc, hdst⟩ | hrst
    · exact absurd hne (by simp [hsrc, hdst])
    · exact hrst

end Sys2Proof.Machine

/-! # Where received bytes are stored, and the memory family's statements (20_memory.md)

What PBUF and the header registers hold after any string of bytes received from any counter value; DATA0 and DATA1 are then
one string of bytes and the end of the datagram, which moves no stored byte. -/

namespace Sys2Proof.Machine

/-! ## The payload buffer (R51, R53, R188, R189) -/

/-- One byte received from any counter value writes the one cell its offset maps to, and none beyond the last. -/
theorem readPbuf_receiveByte (s : State) (b : Byte) (a : Nat) :
    readPbuf (receiveByte s b) a = if s.rxcnt.toNat = a + 12 ∧ a < 65535 then b else readPbuf s a := by
  rcases Nat.lt_or_ge s.rxcnt.toNat 8 with h8 | h8
  · rw [receiveByte_hdr s b ⟨_, h8⟩ rfl, if_neg (by omega)]
    exact readPbuf_congr rfl rfl
  rcases Nat.lt_or_ge s.rxcnt.toNat 12 with h12 | h12
  · rw [receiveByte_csum s b ⟨s.rxcnt.toNat - 8, by omega⟩ (by simp only; omega), if_neg (by omega)]
    exact readPbuf_congr rfl rfl
  rcases Nat.lt_or_ge s.rxcnt.toNat 65547 with hp | hp
  · obtain ⟨c, hc⟩ : ∃ c : Fin 65535, s.rxcnt.toNat = c + 12 := ⟨⟨s.rxcnt.toNat - 12, by omega⟩, by simp only; omega⟩
    have hput : readPbuf (receiveByte s b) a = readPbuf (s.putPbuf c b) a := by
      rw [receiveByte_pbuf s b c hc]; exact readPbuf_congr rfl rfl
    rw [hput, readPbuf_putPbuf]
    congr 1
    simp only [eq_iff_iff]
    omega
  · rw [receiveByte_drop s b hp, if_neg (by omega)]
    exact readPbuf_congr rfl rfl

/-- A string of bytes received from any counter value: cell `a` reads as the byte that came at offset `a + 12`, if one did. -/
theorem readPbuf_receiveBytes (s : State) (d : List Byte) (a : Nat) :
    readPbuf (d.foldl receiveByte s) a =
      if a < 65535 ∧ s.rxcnt.toNat ≤ a + 12 then d[a + 12 - s.rxcnt.toNat]?.getD (readPbuf s a) else readPbuf s a := by
  induction d generalizing s with
  | nil => simp
  | cons b d ih =>
    rw [List.foldl_cons, ih, readPbuf_receiveByte, receiveByte_rxcnt]
    by_cases hin : a < 65535 ∧ s.rxcnt.toNat ≤ a + 12
    · rw [if_pos hin]
      rcases Nat.eq_or_lt_of_le hin.2 with heq | hlt
      · rw [if_neg (by omega), if_pos ⟨heq, hin.1⟩, heq, Nat.sub_self, List.getElem?_cons_zero, Option.getD_some]
      · have hsub : a + 12 - s.rxcnt.toNat = a + 12 - (s.rxcnt.toNat + 1) + 1 := by omega
        rw [if_pos (by omega), if_neg (by omega), Nat.min_eq_left (by omega), hsub, List.getElem?_cons_succ]
    · rw [if_neg hin, if_neg (by omega), if_neg (by omega)]

/-- The end of a datagram moves no byte of PBUF (R27, R54). -/
theorem readPbuf_endDatagram (s : State) (a : Nat) : readPbuf (endDatagram s) a = readPbuf s a := by
  obtain ⟨-, -, -, -, hpbuf, -, -, -, -, -, hresets⟩ := endDatagram_frame s
  exact readPbuf_congr (by rw [hpbuf]) hresets

theorem readPbuf_receiveDatagram (s : State) (d : List Byte) (a : Nat) :
    readPbuf (receiveDatagram d s) a =
      if a < 65535 ∧ s.rxcnt.toNat ≤ a + 12 then d[a + 12 - s.rxcnt.toNat]?.getD (readPbuf s a) else readPbuf s a :=
  (readPbuf_endDatagram _ a).trans (readPbuf_receiveBytes s d a)

/-- A cell outside the offsets a datagram's bytes come at reads as before. -/
theorem readPbuf_receiveDatagram_of_outside (s : State) (d : List Byte) {a : Nat}
    (h : a + 12 < s.rxcnt.toNat ∨ s.rxcnt.toNat + d.length ≤ a + 12) :
    readPbuf (receiveDatagram d s) a = readPbuf s a := by
  rw [readPbuf_receiveDatagram]
  split
  · rw [List.getElem?_eq_none (by omega), Option.getD_none]
  · rfl

/-- A payload of at most 65535 bytes behind twelve bytes, received from offset 0, fills PBUF from address 0 (R53). -/
theorem readPbuf_receiveDatagram_append (s : State) {pre p : List Byte} (h0 : s.rxcnt = 0) (hpre : pre.length = 12)
    (hp : p.length ≤ 65535) (a : Nat) :
    readPbuf (receiveDatagram (pre ++ p) s) a = if h : a < p.length then p[a] else readPbuf s a := by
  have hzero : s.rxcnt.toNat = 0 := by rw [h0]; rfl
  split
  · next ha =>
    rw [readPbuf_receiveDatagram, if_pos (by omega), hzero, Nat.sub_zero, List.getElem?_append_right (by omega), hpre,
      Nat.add_sub_cancel, List.getElem?_eq_getElem ha, Option.getD_some]
  · next ha => exact readPbuf_receiveDatagram_of_outside s _ (by rw [hzero, List.length_append]; omega)

/-! ## The header and checksum registers (R23, R24, R51) -/

/-- From offset 0, a datagram's first eight bytes stand in HDR and the next four in CSUM. -/
theorem receiveDatagram_hdr_csum (s : State) {hdr csum p : List Byte} (h0 : s.rxcnt = 0) (hh : hdr.length = 8)
    (hc : csum.length = 4) (hp : p.length ≤ 65535) :
    (receiveDatagram (hdr ++ csum ++ p) s).hdr.toList = hdr ∧ (receiveDatagram (hdr ++ csum ++ p) s).csum.toList = csum := by
  obtain ⟨-, hstored⟩ := receiveBytes_stored s (hdr ++ csum ++ p) h0
  obtain ⟨-, -, ehdr, ecsum, -⟩ := endDatagram_frame ((hdr ++ csum ++ p).foldl receiveByte s)
  rw [receiveDatagram, ehdr, ecsum]
  have hlen : (hdr ++ csum ++ p).length = 12 + p.length := by rw [List.length_append, List.length_append, hh, hc]
  have hsplit := hstored (by omega)
  rw [storedBytes, take_vector_of_le _ (by omega), take_vector_of_le _ (by omega)] at hsplit
  obtain ⟨hregs, -⟩ := List.append_inj hsplit (by simp [hh, hc])
  exact List.append_inj hregs (by simp [hh])

/-- The field views read the fields of the header bytes in HDR (R23). -/
theorem hdrViews_of_toList {s : State} {src dst : BitVec 16} {seq flag : Byte} {len : BitVec 16}
    (h : s.hdr.toList = bytesBe16 src ++ bytesBe16 dst ++ [seq, flag] ++ bytesBe16 len) :
    s.srcView = src ∧ s.dstView = dst ∧ s.seqView = seq ∧ s.flagView = flag ∧ s.lenView = len := by
  have hget (i : Fin 8) : s.hdr[i] = (bytesBe16 src ++ bytesBe16 dst ++ [seq, flag] ++ bytesBe16 len)[i] := by
    simp only [← h]; rfl
  refine ⟨?_, ?_, hget 4, hget 5, ?_⟩
  · exact (congrArg₂ be16 (hget 0) (hget 1)).trans (be16_bytes src)
  · exact (congrArg₂ be16 (hget 2) (hget 3)).trans (be16_bytes dst)
  · exact (congrArg₂ be16 (hget 6) (hget 7)).trans (be16_bytes len)

/-- CLAIMED reads the checksum whose bytes are in CSUM (R24). -/
theorem claimedView_of_toList {s : State} {v : BitVec 32} (h : s.csum.toList = bytesBe32 v) : s.claimedView = v := by
  have hget (i : Fin 4) : s.csum[i] = (bytesBe32 v)[i] := by simp only [← h]; rfl
  calc s.claimedView = be32 s.csum[(0 : Fin 4)] s.csum[(1 : Fin 4)] s.csum[(2 : Fin 4)] s.csum[(3 : Fin 4)] := rfl
    _ = v := by rw [hget, hget, hget, hget]; exact be32_bytes v

/-! ## DATA0 and DATA1 -/

/-- A whole datagram completes with a status. -/
theorem receiveDatagram_status (d : List Byte) (s : State) : (receiveDatagram d s).out.status.isSome = true := by
  obtain ⟨st, hst, -⟩ := endDatagram_out (d.foldl receiveByte s)
  rw [receiveDatagram, hst, Option.isSome_some]

/-- DATA0 and DATA1 are one datagram of the same shape, received whole (R92, R196; log 12). -/
theorem exec_data {i : Instr} {src dst : BitVec 16} {seq flag : Byte} {len : BitVec 16} {csum : BitVec 32} {p : List Byte}
    (h : i = .data0 src dst flag len csum p ∧ seq = 0 ∨ i = .data1 src dst flag len csum p ∧ seq = 1) (s : State) :
    exec i s = .next (receiveDatagram (dataPrefix src dst seq flag len csum ++ p) s) := by
  rcases h with ⟨rfl, rfl⟩ | ⟨rfl, rfl⟩ <;> rfl

/-- Settles O32: the twelve leading bytes and the payload come at the offsets from RXCNT on, and the end of the datagram
moves no byte. -/
theorem dataInstructionsCompleteWithTheirFrame : Obligations.DataInstructionsCompleteWithTheirFrame := by
  intro s i p hi
  obtain ⟨src, dst, seq, flag, len, csum, hi⟩ : ∃ (src dst : BitVec 16) (seq flag : Byte) (len : BitVec 16) (csum : BitVec 32),
      i = .data0 src dst flag len csum p ∧ seq = 0 ∨ i = .data1 src dst flag len csum p ∧ seq = 1 := by
    rcases hi with ⟨src, dst, flag, len, csum, rfl⟩ | ⟨src, dst, flag, len, csum, rfl⟩
    · exact ⟨src, dst, 0, flag, len, csum, .inl ⟨rfl, rfl⟩⟩
    · exact ⟨src, dst, 1, flag, len, csum, .inr ⟨rfl, rfl⟩⟩
  obtain ⟨hrxcnt, hcrc, hframe⟩ := receiveDatagram_frame s (dataPrefix src dst seq flag len csum ++ p)
  refine ⟨_, exec_data hi s, receiveDatagram_status _ s, ⟨hrxcnt, hcrc⟩, fun a ha => ?_, hframe⟩
  exact readPbuf_receiveDatagram_of_outside s _ (by rw [List.length_append, dataPrefix_length]; omega)

/-- Settles O33: between datagrams the bytes come at the offsets from 0 on, so HDR, CSUM and PBUF hold the parts of the
datagram in wire order, and the views undo the byte order of the fields. -/
theorem datagramBytesLieWhereTheMapSays : Obligations.DatagramBytesLieWhereTheMapSays := by
  intro s i src dst seq flag len csum p ⟨h0, _⟩ hp hi
  have hmax : p.length ≤ 65535 := by have := len.isLt; omega
  obtain ⟨hhdr, hcsum⟩ := receiveDatagram_hdr_csum s (hdr := bytesBe16 src ++ bytesBe16 dst ++ [seq, flag] ++ bytesBe16 len)
    (csum := bytesBe32 csum) h0 rfl rfl hmax
  obtain ⟨hsrc, hdst, hseq, hflag, hlen⟩ := hdrViews_of_toList hhdr
  exact ⟨_, exec_data hi s, hhdr, hcsum, hsrc, hdst, hseq, hflag, hlen, claimedView_of_toList hcsum,
    readPbuf_receiveDatagram_append s h0 (dataPrefix_length ..) hmax⟩

end Sys2Proof.Machine

/-! # Words and fields, and the encoding family's statements (30_encoding.md)

Each format's word is taken apart into its fields and put together again once; decoding and encoding are then each other's
inverse format by format. What a datagram presented as a whole does is `process` on its bytes, however long they are. -/

namespace Sys2Proof

/-! ## The command word (R80, R81) -/

theorem cmdWord_fields (r : BitVec 1) (cmd : BitVec 2) (data : Byte) :
    (cmdWord r cmd data).extractLsb' 10 1 = r ∧ (cmdWord r cmd data).extractLsb' 8 2 = cmd ∧
    (cmdWord r cmd data).extractLsb' 0 8 = data := by
  have := r.isLt; have := cmd.isLt; have := data.isLt
  refine ⟨?_, ?_, ?_⟩ <;> apply BitVec.eq_of_toNat_eq <;>
    rw [BitVec.extractLsb'_toNat, Nat.shiftRight_eq_div_pow, Laws.RowMatch.cmdWord_toNat] <;> omega

/-- A command word is made of its three fields. -/
theorem cmdWord_of_fields (c : BitVec 11) :
    cmdWord (c.extractLsb' 10 1) (c.extractLsb' 8 2) (c.extractLsb' 0 8) = c := by
  have := c.isLt
  apply BitVec.eq_of_toNat_eq
  simp only [Laws.RowMatch.cmdWord_toNat, BitVec.extractLsb'_toNat, Nat.shiftRight_eq_div_pow]
  omega

/-- Command words with different fields differ. -/
theorem cmdWord_inj {r r' : BitVec 1} {cmd cmd' : BitVec 2} {data data' : Byte}
    (h : cmdWord r cmd data = cmdWord r' cmd' data') : r = r' ∧ cmd = cmd' ∧ data = data' := by
  obtain ⟨hr, hcmd, hdata⟩ := cmdWord_fields r cmd data
  obtain ⟨hr', hcmd', hdata'⟩ := cmdWord_fields r' cmd' data'
  rw [h] at hr hcmd hdata
  exact ⟨hr.symm.trans hr', hcmd.symm.trans hcmd', hdata.symm.trans hdata'⟩

/-- The mask of RST's row keeps the bit `rst` alone. -/
theorem cmdWord_and_rstMask (r : BitVec 1) (cmd : BitVec 2) (data : Byte) :
    cmdWord r cmd data &&& 0x400 = cmdWord r 0 0 := by
  have := r.isLt; have := cmd.isLt; have := data.isLt
  apply BitVec.eq_of_toNat_eq
  rw [BitVec.toNat_and, show (0x400 : BitVec 11).toNat = 0x400 from rfl, Laws.RowMatch.and_rst]
  simp only [Laws.RowMatch.cmdWord_toNat, Laws.RowMatch.fieldValues]
  omega

/-- The mask of the other rows keeps `rst` and `cmd`. -/
theorem cmdWord_and_cmdMask (r : BitVec 1) (cmd : BitVec 2) (data : Byte) :
    cmdWord r cmd data &&& 0x700 = cmdWord r cmd 0 := by
  have := r.isLt; have := cmd.isLt; have := data.isLt
  apply BitVec.eq_of_toNat_eq
  rw [BitVec.toNat_and, show (0x700 : BitVec 11).toNat = 0x700 from rfl, Laws.RowMatch.and_cmd]
  simp only [Laws.RowMatch.cmdWord_toNat, Laws.RowMatch.fieldValues]
  omega

/-- The command word's decoding, by its fields. -/
theorem decodeCmd_cmdWord (r : BitVec 1) (cmd : BitVec 2) (data : Byte) :
    decodeCmd (cmdWord r cmd data) =
      if r = 1 then .rst cmd data
      else if cmd = 0 then .nop data
      else if cmd = 1 then .rxb data
      else if cmd = 2 then .rxe data
      else .cmdRsvd data := by
  obtain ⟨hr, hcmd, hdata⟩ := cmdWord_fields r cmd data
  have hbit : (cmdWord r cmd data).getLsbD 10 = r.getLsbD 0 := by
    conv_rhs => rw [← hr]
    simp
  have hrst : ∀ r : BitVec 1, r.getLsbD 0 = true ↔ r = 1 := by decide
  simp only [decodeCmd, hcmd, hdata, hbit, hrst]

/-- A command word encodes what it decodes to. -/
theorem encode_decodeCmd (c : BitVec 11) : encode (decodeCmd c) = .cmd c := by
  rw [← cmdWord_of_fields c, decodeCmd_cmdWord]
  generalize c.extractLsb' 10 1 = r, c.extractLsb' 8 2 = cmd, c.extractLsb' 0 8 = data
  have hr : r ≠ 1 → r = 0 := by revert r; decide
  have hcmd : cmd ≠ 0 → cmd ≠ 1 → cmd ≠ 2 → cmd = 3 := by revert cmd; decide
  split
  · next h => rw [h]; rfl
  next h =>
  rw [hr h]
  split
  · next h0 => rw [h0]; rfl
  split
  · next h1 => rw [h1]; rfl
  split
  · next h2 => rw [h2]; rfl
  · next h0 h1 h2 => rw [hcmd h0 h1 h2]; rfl

/-- No command word brings a payload. -/
theorem wellFormed_decodeCmd (c : BitVec 11) : WellFormed (decodeCmd c) := by
  rw [← cmdWord_of_fields c, decodeCmd_cmdWord]
  repeat' split
  all_goals trivial

/-! ## The acknowledgment word (R76, R77) -/

theorem ackWord_fields (src dst : BitVec 16) (seq : Byte) (csum : BitVec 32) :
    (ackWord src dst seq csum).extractLsb' 56 16 = src ∧ (ackWord src dst seq csum).extractLsb' 40 16 = dst ∧
    (ackWord src dst seq csum).extractLsb' 32 8 = seq ∧ (ackWord src dst seq csum).extractLsb' 0 32 = csum := by
  have := src.isLt; have := dst.isLt; have := seq.isLt; have := csum.isLt
  refine ⟨?_, ?_, ?_, ?_⟩ <;> apply BitVec.eq_of_toNat_eq <;>
    rw [BitVec.extractLsb'_toNat, Nat.shiftRight_eq_div_pow, Laws.RowMatch.ackWord_toNat] <;> omega

/-- An outbound word is made of its four fields. -/
theorem ackWord_of_fields (a : BitVec 72) :
    ackWord (a.extractLsb' 56 16) (a.extractLsb' 40 16) (a.extractLsb' 32 8) (a.extractLsb' 0 32) = a := by
  have := a.isLt
  apply BitVec.eq_of_toNat_eq
  simp only [Laws.RowMatch.ackWord_toNat, BitVec.extractLsb'_toNat, Nat.shiftRight_eq_div_pow]
  omega

/-- The outbound word's decoding, by its fields. -/
theorem decodeAck_ackWord (src dst : BitVec 16) (seq : Byte) (csum : BitVec 32) :
    decodeAck (ackWord src dst seq csum) =
      if seq = 0 then .ok (.ack0 src dst csum)
      else if seq = 1 then .ok (.ack1 src dst csum)
      else .error .notAnAck := by
  obtain ⟨hsrc, hdst, hseq, hcsum⟩ := ackWord_fields src dst seq csum
  simp only [decodeAck, hsrc, hdst, hseq, hcsum]

/-- An outbound word that decodes is ACK0's or ACK1's encoding. -/
theorem encode_of_decodeAck {a : BitVec 72} {i : Instr} (h : decodeAck a = .ok i) : encode i = .ack a ∧ WellFormed i := by
  rw [← ackWord_of_fields a, decodeAck_ackWord] at h
  rw [← ackWord_of_fields a]
  split at h
  · next h0 => cases h; rw [h0]; exact ⟨rfl, trivial⟩
  split at h
  · next h1 => cases h; rw [h1]; exact ⟨rfl, trivial⟩
  · cases h

/-- The bytes of `A`, most significant first, are the fields in wire order (R76). -/
theorem wordBytes_ackWord (src dst : BitVec 16) (seq : Byte) (csum : BitVec 32) :
    wordBytes 9 (ackWord src dst seq csum) = bytesBe16 src ++ bytesBe16 dst ++ [seq] ++ bytesBe32 csum := by
  have := src.isLt; have := dst.isLt; have := seq.isLt; have := csum.isLt
  simp only [wordBytes, bytesBe16, bytesBe32, List.range, List.range.loop, List.map_cons, List.map_nil, List.cons_append,
    List.nil_append, List.cons.injEq, and_true]
  refine ⟨?_, ?_, ?_, ?_, ?_, ?_, ?_, ?_, ?_⟩ <;> apply BitVec.eq_of_toNat_eq <;>
    simp only [extractByte_toNat, Laws.RowMatch.ackWord_toNat] <;> omega

/-! ## The inbound datagram (R71 to R74) -/

theorem decodeData_prefix (src dst : BitVec 16) (seq flag : Byte) (len : BitVec 16) (csum : BitVec 32) (p : List Byte) :
    decodeData (dataPrefix src dst seq flag len csum ++ p) =
      if p.length ≠ len.toNat then .error (.malformed .length)
      else if 1 < seq.toNat then .error (.malformed .seqRange)
      else if seq.getLsbD 0 then .ok (.data1 src dst flag len csum p)
      else .ok (.data0 src dst flag len csum p) := by
  rw [decodeData, decodeFields_prefix]
  by_cases hlen : p.length ≠ len.toNat
  · simp only [if_pos hlen]
  by_cases hseq : 1 < seq.toNat
  · simp only [if_neg hlen, if_pos hseq]
  · simp only [if_neg hlen, if_neg hseq]

/-- A sequence byte in range is the byte of its low bit (R52). -/
theorem eq_bitByte_of_le_one {seq : Byte} (h : ¬ 1 < seq.toNat) : seq = bitByte (seq.getLsbD 0) := by
  revert seq; decide

/-- A datagram that decodes is DATA0's or DATA1's encoding, its payload as long as it declares. -/
theorem encode_of_decodeData {d : List Byte} {i : Instr} (h : decodeData d = .ok i) : encode i = .data d ∧ WellFormed i := by
  rcases Nat.lt_or_ge d.length 12 with hl | hl
  · rw [decodeData, decodeFields_short hl] at h; cases h
  obtain ⟨src, dst, seq, flag, len, csum, p, rfl⟩ := eq_dataPrefix_append hl
  rw [decodeData_prefix] at h
  split at h
  · cases h
  next hlen =>
  split at h
  · cases h
  next hseq =>
  rw [eq_bitByte_of_le_one hseq]
  split at h
  · next hbit => cases h; rw [hbit]; exact ⟨rfl, not_not.1 hlen⟩
  · next hbit => cases h; rw [Bool.not_eq_true _ |>.mp hbit]; exact ⟨rfl, not_not.1 hlen⟩

/-! ## The FSM-IN word (R89) -/

/-- An FSM-IN word that decodes is the encoding of its row. -/
theorem encode_of_decodeFsm {f : BitVec 3} {i : Instr} (h : decodeFsm f = .ok i) : encode i = .fsm f ∧ WellFormed i := by
  unfold decodeFsm at h
  repeat' split at h
  all_goals cases h
  all_goals exact ⟨by simp only [encode, *], trivial⟩

/-! ## Decoding and encoding -/

theorem decode_encode {i : Instr} (h : WellFormed i) : decode (encode i) = .ok i := by
  cases i with
  | rst | nop | rxb | rxe | cmdRsvd => exact congrArg Except.ok (decodeCmd_cmdWord ..)
  | data0 | data1 =>
    refine (decodeData_prefix ..).trans ?_
    rw [if_neg (not_not.2 h)]; rfl
  | ack0 | ack1 => exact decodeAck_ackWord ..
  | fsmZAllFine | fsmOAllFine | fsmZIsCorrupt | fsmOIsCorrupt | fsmZWrongAlt | fsmOWrongAlt => rfl

/-- What the decoder accepts, format by format, is the encoding of a well-formed instruction. -/
theorem encode_of_decode {e : Enc} {i : Instr} (h : decode e = .ok i) : encode i = e ∧ WellFormed i := by
  cases e with
  | cmd c => cases h; exact ⟨encode_decodeCmd c, wellFormed_decodeCmd c⟩
  | data d => exact encode_of_decodeData h
  | ack a => exact encode_of_decodeAck h
  | fsm f => exact encode_of_decodeFsm h

/-- Settles O1, by the decoding of each format's word from its fields. -/
theorem decodeOfEncodeIsIdentity : Obligations.DecodeOfEncodeIsIdentity := fun _ => decode_encode

/-- Settles O2: each format's word is put together again from the fields the decoder reads. -/
theorem encodeOfDecodeIsIdentity : Obligations.EncodeOfDecodeIsIdentity := fun _ _ => encode_of_decode

end Sys2Proof

namespace Sys2Proof.Machine

/-! ## From the word at the inputs to its execution (R63, R81) -/

/-- Settles O3: each mask keeps the fields its row is told by, and the ignored bits are not read. -/
theorem commandWordSelectsByPriority : Obligations.CommandWordSelectsByPriority := by
  refine ⟨fun c => ?_, fun _ _ _ _ _ => ⟨rfl, rfl, rfl, rfl⟩⟩
  rw [← cmdWord_of_fields c]
  generalize c.extractLsb' 10 1 = r, c.extractLsb' 8 2 = cmd, c.extractLsb' 0 8 = data
  obtain ⟨-, -, hdata⟩ := cmdWord_fields r cmd data
  have hrow (k : BitVec 2) (h : cmdWord r cmd data &&& 0x700 = cmdWord 0 k 0) : r = 0 ∧ cmd = k := by
    obtain ⟨hr, hk, -⟩ := cmdWord_inj ((cmdWord_and_cmdMask r cmd data).symm.trans h)
    exact ⟨hr, hk⟩
  simp only [decode, decodeCmd_cmdWord, hdata]
  refine ⟨fun h => ?_, fun h => ?_, fun h => ?_, fun h => ?_, fun h => ?_⟩
  · have hword : cmdWord r 0 0 = cmdWord 1 0 0 := (cmdWord_and_rstMask r cmd data).symm.trans h
    obtain ⟨rfl, -, -⟩ := cmdWord_inj hword
    exact ⟨cmd, data, rfl⟩
  · obtain ⟨rfl, rfl⟩ := hrow 0 h; exact ⟨data, rfl⟩
  · obtain ⟨rfl, rfl⟩ := hrow 1 h; rfl
  · obtain ⟨rfl, rfl⟩ := hrow 2 h; exact ⟨data, rfl⟩
  · obtain ⟨rfl, rfl⟩ := hrow 3 h; exact ⟨data, rfl⟩

/-- Settles O52: the step is the decoder and `exec` after the fetch, and each thing presented is fetched in its format. -/
theorem stepRunsTheDecodedInstruction : Obligations.StepRunsTheDecodedInstruction := by
  refine ⟨fun s e i hf hd => ?_, fun s rest => ?_⟩
  · obtain ⟨-, hwf⟩ := encode_of_decode hd
    refine ⟨hwf, ?_⟩
    rw [step, hf]
    simp only [hd]
    rfl
  · refine ⟨fun c h => ?_, fun d h => ?_, fun a h => ?_, fun e h => ?_⟩ <;> rw [fetch, h]
    rfl

/-! ## The acknowledgment the framer builds (R170) -/

/-- The bytes of an acknowledgment, read as the word `A` (R76). -/
theorem ackDataWord_bytes (src dst : BitVec 16) (seq : Byte) (csum : BitVec 32) :
    ackDataWord (bytesBe16 src ++ bytesBe16 dst ++ [seq] ++ bytesBe32 csum) = ackWord src dst seq csum := by
  have := src.isLt; have := dst.isLt; have := seq.isLt; have := csum.isLt
  apply BitVec.eq_of_toNat_eq
  simp only [ackDataWord, bytesBe16, bytesBe32, List.cons_append, List.nil_append, List.foldl_cons, List.foldl_nil,
    extractByte_toNat, BitVec.toNat_ofNat, Laws.RowMatch.ackWord_toNat]
  omega

/-- `build_ack` is the word `A` of the ports, the bit's byte and the checksum of these (R170). -/
theorem ackDataWord_buildAck (src dst : BitVec 16) (b : Bit) :
    ackDataWord (buildAck isoHdlc src dst b) =
      ackWord src dst (bitByte b) (crc32 (bytesBe16 src ++ bytesBe16 dst ++ [bitByte b])) := ackDataWord_bytes ..

theorem wordBytes_ackDataWord_buildAck (src dst : BitVec 16) (b : Bit) :
    wordBytes 9 (ackDataWord (buildAck isoHdlc src dst b)) = buildAck isoHdlc src dst b := by
  rw [ackDataWord_buildAck, wordBytes_ackWord]; rfl

@[simp] theorem ackBit_buildAck (cfg : Config.Cfg) (src dst : BitVec 16) (b : Bit) : ackBit (buildAck cfg src dst b) = b := by
  have hbyte : (buildAck cfg src dst b).getD 4 0 = bitByte b := rfl
  rw [ackBit, extractSequenceBit, hbyte]
  cases b <;> rfl

/-- Settles O6, by `ackDataWord_buildAck` and the decoding of an outbound word by its sequence byte. -/
theorem builtAckIsEncodedAckWord : Obligations.BuiltAckIsEncodedAckWord := by
  intro src dst b
  refine ⟨ackDataWord_buildAck src dst b, ?_⟩
  rw [ackDataWord_buildAck, decode, decodeAck_ackWord]
  cases b <;> rfl

/-! ## The codes and the pins (R84 to R88, R90) -/

/-- An RXE that reports an error other than MALFORMED reports no cause (R88). -/
theorem endDatagram_mcause {s : State} {st : Status} (hst : (endDatagram s).out.status = some st) (h : st.err ≠ .malformed) :
    st.mcause = none := by
  rcases endDatagram_cases s with ⟨c, -, -, he⟩ | ⟨r, -, -, -, he⟩ | ⟨r, -, -, -, -, he⟩ | ⟨r, -, -, -, -, he⟩ <;>
    rw [he] at hst <;> cases hst
  · exact absurd rfl h
  all_goals rfl

/-- Settles O26: the code tables row by row, and the cause from the cases of RXE. -/
theorem codeValuesAreTheSpecs : Obligations.CodeValuesAreTheSpecs := by
  refine ⟨⟨rfl, rfl, fun st => ?state⟩, ⟨rfl, rfl, rfl, fun ev => ?event⟩, ⟨rfl, rfl, rfl, fun a => ?action⟩,
    ⟨rfl, rfl, rfl, rfl, fun e => ?err⟩, ⟨rfl, rfl, rfl, fun c => ?cause⟩, fun s t data st ht hst herr => ?pins⟩
  case state => cases st <;> decide
  case event => cases ev <;> decide
  case action => cases a <;> decide
  case err => cases e <;> decide
  case cause => rcases c with _ | _ | _ | _ <;> decide
  case pins =>
    cases ht
    have hc := endDatagram_mcause hst herr
    exact ⟨hc, by simp [outPins, hst, hc, mcauseCode]⟩

/-- Each pin group of an output record by the part it shows (R90). -/
theorem outPins_groups (o : Out) :
    ((outPins o).ackValid = true ↔ ∃ a, o.ack = some a) ∧ ((outPins o).dlvValid = true ↔ ∃ p, o.deliver = some p) ∧
    ((outPins o).stValid = true ↔ ∃ st, o.status = some st) :=
  ⟨Option.isSome_iff_exists, Option.isSome_iff_exists, Option.isSome_iff_exists⟩

/-! ## What RXE delivers and acknowledges (R55, R170, R190) -/

/-- A datagram that decodes is its fields' bytes and its payload, as long as it declares (R124). -/
theorem decodeFields_eq_ok {d : List Byte} {r : Fields} (h : decodeFields d = .ok r) :
    (∃ seq, d = dataPrefix r.src r.dst seq r.flag r.len r.claimed ++ r.payload) ∧ r.payload.length = r.len.toNat := by
  rcases Nat.lt_or_ge d.length 12 with hl | hl
  · rw [decodeFields_short hl] at h; cases h
  obtain ⟨src, dst, seq, flag, len, csum, p, rfl⟩ := eq_dataPrefix_append hl
  rw [decodeFields_prefix] at h
  split at h
  · cases h
  next hlen =>
  split at h
  · cases h
  · cases h; exact ⟨⟨seq, rfl⟩, not_not.1 hlen⟩

/-- The received datagram's length field stands in HDR and its payload in PBUF from address 0 on (R51, R55). -/
theorem decodeView_rxView_eq_ok {s : State} {r : Fields} (h : decodeView (rxView s) = .ok r) :
    r.payload.length = r.len.toNat ∧ s.lenView = r.len ∧ r.payload = memRead s 0 r.len.toNat := by
  rcases Nat.lt_or_ge s.rxcnt.toNat 65548 with hn | hn
  · rw [rxView_of_lt s hn] at h
    obtain ⟨⟨seq, hd⟩, hlen⟩ := decodeFields_eq_ok h
    have hsize := congrArg List.length hd
    rw [storedBytes_length, List.length_append, dataPrefix_length] at hsize
    have hcount : s.rxcnt.toNat - 12 = r.len.toNat := by omega
    rw [storedBytes, take_vector_of_le _ (by omega), take_vector_of_le _ (by omega), hcount] at hd
    obtain ⟨hregs, hpayload⟩ := List.append_inj hd (by simp)
    obtain ⟨hhdr, -⟩ := List.append_inj (hregs.trans (dataPrefix.eq_1 ..)) (by simp)
    obtain ⟨-, -, -, -, hview⟩ := hdrViews_of_toList hhdr
    exact ⟨hlen, hview, hpayload.symm⟩
  · rw [rxView_of_ge s hn] at h; cases h

/-- What RXE delivers is the payload of what was received (R158, R190). -/
theorem endDatagram_deliver {s : State} {p : List Byte} (h : (endDatagram s).out.deliver = some p) :
    ∃ r, decodeView (rxView s) = .ok r ∧ p = r.payload := by
  rcases endDatagram_cases s with ⟨c, -, -, he⟩ | ⟨r, -, -, -, he⟩ | ⟨r, -, -, -, -, he⟩ | ⟨r, hr, -, -, -, he⟩ <;>
    rw [he] at h <;> cases h
  exact ⟨r, hr, rfl⟩

/-- A delivered payload's length fits the pin `dlv_len`, because LEN is a 16-bit field (R90). -/
theorem dlvLen_endDatagram {s : State} {p : List Byte} (h : (endDatagram s).out.deliver = some p) :
    (outPins (endDatagram s).out).dlvLen = s.lenView ∧ p.length = s.lenView.toNat := by
  obtain ⟨r, hr, rfl⟩ := endDatagram_deliver h
  obtain ⟨hlen, hview, -⟩ := decodeView_rxView_eq_ok hr
  rw [hview]
  exact ⟨by simp [outPins, h, hlen], hlen⟩

/-- Settles O25, by `dlvLen_endDatagram`. -/
theorem deliveredLengthIsOnThePins : Obligations.DeliveredLengthIsOnThePins := by
  intro s t data p ht hp
  cases ht
  obtain ⟨hpin, hlen⟩ := dlvLen_endDatagram hp
  obtain ⟨-, hvalid, -⟩ := outPins_groups (endDatagram s).out
  exact ⟨hvalid.2 ⟨p, hp⟩, by rw [hpin, hlen]⟩

/-- A delivery is the delivery window of the state RXE leaves (R55). -/
theorem endDatagram_deliver_eq_window {s : State} {p : List Byte} (h : (endDatagram s).out.deliver = some p) :
    p = deliveryWindow (endDatagram s) ∧ p = memRead (endDatagram s) 0 (outPins (endDatagram s).out).dlvLen.toNat := by
  obtain ⟨hpin, -⟩ := dlvLen_endDatagram h
  obtain ⟨r, hr, rfl⟩ := endDatagram_deliver h
  obtain ⟨-, hview, hpayload⟩ := decodeView_rxView_eq_ok hr
  obtain ⟨-, -, hhdr, -, hpbuf, -, -, -, -, -, hresets⟩ := endDatagram_frame s
  have hview' : (endDatagram s).lenView = r.len := by rw [State.lenView, hhdr]; exact hview
  rw [hpin, deliveryWindow, hview', hview, memRead_congr hpbuf hresets]
  exact ⟨hpayload, hpayload⟩

/-- Settles O27: the pins by the parts of the record; the ACK RXE emits is a `build_ack` and its delivery the window. -/
theorem outputPinsShowTheOutputs : Obligations.OutputPinsShowTheOutputs := by
  refine ⟨fun o => ?pins, fun s t data ht => ⟨fun a ha => ?ack, fun p hp => ?deliver⟩⟩
  case pins =>
    obtain ⟨hack, hdlv, hst⟩ := outPins_groups o
    refine ⟨hack, hdlv, hst, fun h => ?_, fun h => ?_, fun h => ?_, fun st h => ?_⟩ <;> simp [outPins, h]
  case ack =>
    cases ht
    obtain ⟨-, -, -, -, hbuilt⟩ := endDatagram_out s
    obtain ⟨b, -, rfl⟩ := Option.map_eq_some_iff.1 (hbuilt.symm.trans ha)
    have hpin : (outPins (endDatagram s).out).ackData = ackDataWord (sessionAck isoHdlc s b) := by simp [outPins, ha]
    rw [hpin, sessionAck, ackBit_buildAck]
    exact ⟨wordBytes_ackDataWord_buildAck .., ackDataWord_buildAck ..⟩
  case deliver =>
    cases ht
    obtain ⟨hwindow, hread⟩ := endDatagram_deliver_eq_window hp
    exact ⟨hread, hwindow⟩

/-! ## A whole datagram between datagrams is `process` on its bytes (R190, R196) -/

/-- An overlong datagram has a wrong length field, so the view of a datagram decodes as its bytes do (R125). -/
theorem decodeView_datagramView (d : List Byte) : decodeView (datagramView d) = decodeFields d := by
  unfold datagramView Config.maxFrame
  split
  · rfl
  next hmax =>
  obtain ⟨src, dst, seq, flag, len, csum, p, rfl⟩ := eq_dataPrefix_append (d := d) (by omega)
  rw [List.length_append, dataPrefix_length] at hmax
  have hlen : p.length ≠ len.toNat := by have := len.isLt; omega
  rw [decodeFields_prefix, if_pos hlen]; rfl

/-- Classification reads a view through its decoding alone. -/
theorem classifyWith_of_decodeView {rx rx' : RxView} (h : decodeView rx = decodeView rx') (ok : Fields → Bool) (e : Bit) :
    classifyWith ok rx e = classifyWith ok rx' e := by
  simp only [classifyWith, h]

/-- `process` reads a state through its session and a view through its decoding. -/
theorem process_congr {s u : State} {rx rx' : RxView} (cfg : Config.Cfg) (h : SameSession s u)
    (hrx : decodeView rx = decodeView rx') :
    (process cfg rx u).out = (process cfg rx' s).out ∧ SameSession (process cfg rx' s) (process cfg rx u) := by
  obtain ⟨hst, hlav, hlab, hsrc, hdst⟩ := h
  simp only [process, processWith, hst, classifyWith_of_decodeView hrx]
  generalize classifyWith (batchChecksumOk cfg) rx' (expectedBit s.state) = v
  cases v.event <;>
    simp [transition_allFine, transition_isCorrupt, transition_wrongAlternating, sessionAck, SameSession, Out.none, hlav,
      hlab, hsrc, hdst]

/-- Between datagrams the running register tracks the bytes received, of which there are none (R105). -/
theorem BetweenDatagrams.crcTracks {s : State} (h : BetweenDatagrams s) : Inv.CrcTracks s := by
  obtain ⟨hrxcnt, hcrc⟩ := h
  simp [Inv.CrcTracks, coveredBytes, hrxcnt, hcrc]

theorem receiveBytes_crcTracks (d : List Byte) {s : State} (h : Inv.CrcTracks s) :
    Inv.CrcTracks (d.foldl receiveByte s) := by
  induction d generalizing s with
  | nil => exact h
  | cons b d ih => exact ih (receiveByte_crcTracks s b h)

theorem receiveBytes_sameSession (d : List Byte) (s : State) : SameSession s (d.foldl receiveByte s) := by
  obtain ⟨hst, hlav, hlab, hsrc, hdst, -⟩ := receiveBytes_frame s d
  exact ⟨hst, hlav, hlab, hsrc, hdst⟩

/-- Where the running register tracks the bytes received, RXE is `process` on the received view (R189, R106; log 10). -/
theorem endDatagram_eq_process {s : State} (h : Inv.CrcTracks s) :
    endDatagram s = { process isoHdlc (rxView s) s with rxcnt := 0, crc := crcInit } := by
  rw [endDatagram_eq, process, processWith_congr s (registerChecksumOk_eq_batch h)]

/-- A whole datagram received between datagrams: the outputs and the session of `process` on its bytes, of any length. -/
theorem receiveDatagram_eq_process {s : State} (h : BetweenDatagrams s) (d : List Byte) :
    (receiveDatagram d s).out = (process isoHdlc (.bytes d) s).out ∧
    SameSession (process isoHdlc (.bytes d) s) (receiveDatagram d s) ∧ BetweenDatagrams (receiveDatagram d s) := by
  have hview : decodeView (rxView (d.foldl receiveByte s)) = decodeView (.bytes d) := by
    rw [rxView_receiveBytes s d h.1]; exact decodeView_datagramView d
  obtain ⟨hout, hsession⟩ := process_congr isoHdlc (receiveBytes_sameSession d s) hview
  rw [receiveDatagram, endDatagram_eq_process (receiveBytes_crcTracks d h.crcTracks)]
  exact ⟨hout, hsession, rfl, rfl⟩

/-- Settles O29: DATA0 and DATA1 are one datagram received whole. -/
theorem dataInstructionsAreProcessed : Obligations.DataInstructionsAreProcessed := by
  intro s src dst flag len csum p h _
  exact ⟨⟨_, rfl, receiveDatagram_eq_process h _⟩, ⟨_, rfl, receiveDatagram_eq_process h _⟩⟩

/-! ## A datagram presented byte by byte (R122, R196) -/

/-- Operations run one after another, and one more behind them. -/
theorem runExec_concat {ops : List Instr} {i : Instr} {s t u : State} {outs : List Out} (h : runExec ops s = .next (t, outs))
    (hi : exec i t = .next u) : runExec (ops ++ [i]) s = .next (u, outs ++ [u.out]) := by
  induction ops generalizing s outs with
  | nil => cases h; simp [runExec, hi]
  | cons j ops ih =>
    rw [runExec] at h
    rw [List.cons_append, runExec]
    split at h
    · split at h
      · next hrest => cases h; simp only [ih hrest, List.cons_append]
      all_goals cases h
    all_goals cases h

/-- The outputs of the step before have no effect on RXE (R187). -/
theorem endDatagram_quiet (s : State) : endDatagram s.quiet = endDatagram s := by
  have hstate : s.quiet.state = s.state := rfl
  have hview : rxView s.quiet = rxView s := rfl
  have hok : registerChecksumOk s.quiet = registerChecksumOk s := rfl
  simp only [endDatagram, processWith, hstate, hview, hok]
  generalize classifyWith (registerChecksumOk s) (rxView s) (expectedBit s.state) = v
  cases v.event <;> simp only [transition_allFine, transition_isCorrupt, transition_wrongAlternating] <;> rfl

/-- Bytes with any NOPs among them and RXE: no output before the last step, which is the whole datagram's. -/
theorem runExec_presentedDatagram {ops : List Instr} (h : BytesAndNops ops) (s : State) (data : Byte) :
    ∃ outs, runExec (ops ++ [.rxe data]) s =
        .next (receiveDatagram (presentedBytes ops) s, outs ++ [(receiveDatagram (presentedBytes ops) s).out]) ∧
      outs.length = ops.length ∧ ∀ o ∈ outs, o = Out.none := by
  obtain ⟨t, outs, hrun, hquiet, hlen, hnone⟩ := runExec_bytesAndNops ops s h
  have hend : exec (.rxe data) t = .next (receiveDatagram (presentedBytes ops) s) := by
    rw [receiveDatagram, ← endDatagram_quiet, ← hquiet, endDatagram_quiet]; rfl
  exact ⟨outs, runExec_concat hrun hend, hlen, hnone⟩

theorem bytesAndNops_map_rxb (d : List Byte) : BytesAndNops (d.map .rxb) := by
  intro i hi
  obtain ⟨b, -, rfl⟩ := List.mem_map.1 hi
  exact .inl ⟨b, rfl⟩

@[simp] theorem presentedBytes_map_rxb (d : List Byte) : presentedBytes (d.map .rxb) = d := by
  simp [presentedBytes, List.filterMap_map, Function.comp_def, presentedByte]

/-! ## Datagrams that are corrupt (R78) -/

/-- The structural tests in their order, the first that fires giving the cause (R124). -/
theorem decodeFields_tests (d : List Byte) :
    if d.length < 12 then decodeFields d = .error .short
    else if d.length ≠ 12 + (be16 (d.getD 6 0) (d.getD 7 0)).toNat then decodeFields d = .error .length
    else if 1 < (d.getD 4 0).toNat then decodeFields d = .error .seqRange
    else ∃ r, decodeFields d = .ok r := by
  split
  · next h => exact decodeFields_short h
  next h =>
  obtain ⟨src, dst, seq, flag, len, csum, p, rfl⟩ := eq_dataPrefix_append (Nat.le_of_not_lt h)
  have hlenField : be16 ((dataPrefix src dst seq flag len csum ++ p).getD 6 0)
      ((dataPrefix src dst seq flag len csum ++ p).getD 7 0) = len := be16_bytes len
  have hseqField : (dataPrefix src dst seq flag len csum ++ p).getD 4 0 = seq := rfl
  rw [hlenField, hseqField, decodeFields_prefix, List.length_append, dataPrefix_length]
  by_cases hlen : p.length = len.toNat
  · by_cases hseq : 1 < seq.toNat <;> simp [hlen, hseq]
  · simp [hlen]

/-- A corrupt datagram is reported and nothing else happens: MALFORMED where it does not decode, a checksum mismatch where it
does (R78, R129). -/
theorem process_of_isCorrupt {cfg : Config.Cfg} {rx : RxView} (h : isCorrupt cfg rx = true) (s : State) :
    ∃ err mcause, (process cfg rx s).out = ⟨none, none, some ⟨.isCorrupt, .ignore, err, mcause⟩⟩ ∧
      SameSession s (process cfg rx s) ∧
      ((∃ c, decodeView rx = .error c ∧ err = .malformed ∧ mcause = some c) ∨
        ∃ r, decodeView rx = .ok r ∧ err = .checksumMismatch ∧ mcause = none) := by
  have hnot {r : Fields} (hd : decodeView rx = .ok r) (hok : batchChecksumOk cfg r = true) : False := by
    simp [isCorrupt, hd, hok] at h
  rw [process]
  rcases processWith_cases s cfg (batchChecksumOk cfg) rx with ⟨c, hd, he⟩ | ⟨r, hd, -, he⟩ | ⟨r, hd, hok, -⟩ | ⟨r, hd, hok, -⟩
  · rw [he]; exact ⟨_, _, rfl, ⟨rfl, rfl, rfl, rfl, rfl⟩, .inl ⟨c, hd, rfl, rfl⟩⟩
  · rw [he]; exact ⟨_, _, rfl, ⟨rfl, rfl, rfl, rfl, rfl⟩, .inr ⟨r, hd, rfl, rfl⟩⟩
  · exact (hnot hd hok).elim
  · exact (hnot hd hok).elim

theorem SameSession.trans {s t u : State} (h : SameSession s t) (h' : SameSession t u) : SameSession s u := by
  obtain ⟨hst, hlav, hlab, hsrc, hdst⟩ := h
  obtain ⟨hst', hlav', hlab', hsrc', hdst'⟩ := h'
  exact ⟨hst'.trans hst, hlav'.trans hlav, hlab'.trans hlab, hsrc'.trans hsrc, hdst'.trans hdst⟩

/-- Settles O34: the bytes and RXE are `process` on the string, which reports the first structural test that fires, or else the
checksum. -/
theorem illegalDatagramsAreCorrupt : Obligations.IllegalDatagramsAreCorrupt := by
  intro s d data hb hcorrupt
  obtain ⟨outs, hrun, -, hnone⟩ := runExec_presentedDatagram (bytesAndNops_map_rxb d) s data
  obtain ⟨hout, hsession, -⟩ := receiveDatagram_eq_process hb d
  obtain ⟨err, mcause, hreport, hsame, hcause⟩ := process_of_isCorrupt hcorrupt s
  rw [presentedBytes_map_rxb, hout, hreport] at hrun
  refine ⟨_, outs, _, hrun, hnone, rfl, hsame.trans hsession, ?_⟩
  have htests := decodeFields_tests d
  rcases hcause with ⟨c, hd, rfl, rfl⟩ | ⟨r, hd, rfl, rfl⟩ <;> rw [show decodeFields d = _ from hd] at htests
  · split_ifs at htests ⊢
    · cases htests; exact ⟨rfl, rfl⟩
    · cases htests; exact ⟨rfl, rfl⟩
    · cases htests; exact ⟨rfl, rfl⟩
    · obtain ⟨r, hr⟩ := htests; cases hr
  · split_ifs at htests ⊢
    exact ⟨rfl, rfl⟩

theorem buildAck_length (cfg : Config.Cfg) (src dst : BitVec 16) (b : Bit) : (buildAck cfg src dst b).length = 9 := rfl

/-- Settles O36: nine bytes are SHORT, and a string the decoder rejects is received whole. -/
theorem ackAtTheInputIsShort : Obligations.AckAtTheInputIsShort := by
  intro s src dst b rest hb hi
  have hshort : decodeFields (buildAck isoHdlc src dst b) = .error .short :=
    decodeFields_short (by rw [buildAck_length]; decide)
  have hstep : step s = .next (receiveDatagram (buildAck isoHdlc src dst b) (taken s)) := by
    simp [step, fetch, hi, decode, decodeData, hshort, reject]
  obtain ⟨hout, hsession, -⟩ := receiveDatagram_eq_process (s := taken s) hb (buildAck isoHdlc src dst b)
  obtain ⟨err, mcause, hreport, hsame, hcause⟩ := process_of_isCorrupt (cfg := isoHdlc)
    (rx := .bytes (buildAck isoHdlc src dst b)) (by simp [isCorrupt, decodeView, hshort]) (taken s)
  obtain ⟨-, -, -, -, -, -, hinputs, -⟩ := receiveDatagram_frame (taken s) (buildAck isoHdlc src dst b)
  refine ⟨_, hstep, ?_, hsame.trans hsession, by rw [hinputs, taken, hi]; rfl⟩
  rw [hout, hreport]
  rcases hcause with ⟨c, hd, rfl, rfl⟩ | ⟨r, hd, -, -⟩ <;> cases hshort.symm.trans hd
  rfl

end Sys2Proof.Machine

/-! # The checksum engine, and the checksum family's statements (40_crc.md)

A step of the engine loses no bit, so a register tells apart any two strings that differ in one byte (R108). Classification
of a byte string is written out test by test, and a flipped bit is then followed through the tests. -/

namespace Sys2Proof.Machine

/-! ## Steps of the register (R101) -/

/-- One step maps only zero to zero: the bit shifted out is seen again in bit 31, where the polynomial has a 1. -/
theorem eq_zero_of_crcShift_eq_zero {c : BitVec 32} (h : crcShift c = 0) : c = 0 := by
  unfold crcShift at h
  split at h
  · have htop := congrArg (BitVec.getLsbD · 31) h
    simp at htop
  · next hlow =>
    have hbits : ∀ i, c.getLsbD (1 + i) = false := fun i => by
      rw [← BitVec.getLsbD_ushiftRight, h]; exact BitVec.getLsbD_zero
    refine BitVec.eq_of_getLsbD_eq fun i _ => ?_
    cases i with
    | zero => simpa using hlow
    | succ i => rw [Nat.add_comm, hbits]; exact BitVec.getLsbD_zero.symm

theorem crcShift_injective : Function.Injective crcShift := fun a b h => by
  have hxor : crcShift (a ^^^ b) = 0 := by rw [crcShift_xor, h, BitVec.xor_self]; rfl
  exact BitVec.xor_eq_zero_iff.1 (eq_zero_of_crcShift_eq_zero hxor)

theorem crcShifts_injective (n : Nat) : Function.Injective (crcShifts n) := by
  induction n with
  | zero => exact Function.injective_id
  | succ n ih => exact ih.comp crcShift_injective

theorem crcUpdate_injective_register (b : Byte) : Function.Injective fun c => crcUpdate c b := fun _ _ h =>
  (BitVec.xor_left_inj _).1 (crcShifts_injective 8 h)

theorem crcUpdate_injective_byte (c : BitVec 32) : Function.Injective fun b => crcUpdate c b := fun b b' h => by
  have hwide : b.setWidth 32 = b'.setWidth 32 := (BitVec.xor_right_inj _).1 (crcShifts_injective 8 h)
  have hnarrow := congrArg (BitVec.setWidth 8) hwide
  simpa using hnarrow

/-- Settles O8: the steps lose nothing, and an injective map of a finite type is bijective. -/
theorem crcUpdateIsBijective : Obligations.CrcUpdateIsBijective :=
  ⟨fun b => Finite.injective_iff_bijective.1 (crcUpdate_injective_register b), crcUpdate_injective_byte⟩

/-! ## The table-driven engine (R103) -/

/-- While only zeros are shifted out, the polynomial is never added. -/
theorem crcShifts_of_low_zero (n : Nat) {c : BitVec 32} (h : ∀ i < n, c.getLsbD i = false) : crcShifts n c = c >>> n := by
  induction n generalizing c with
  | zero => simp
  | succ n ih =>
    have hstep : crcShift c = c >>> 1 := by rw [crcShift, h 0 (by omega)]; rfl
    have hlow : ∀ i < n, (c >>> 1).getLsbD i = false := fun i hi => by
      rw [BitVec.getLsbD_ushiftRight]; exact h (1 + i) (by omega)
    rw [crcShifts_succ, hstep, ih hlow, ← BitVec.shiftRight_add, Nat.add_comm]

/-- Eight steps of any register: its low byte picks the table's entry, the rest moves down. -/
theorem crcShifts_eight (x : BitVec 32) : crcShifts 8 x = (x >>> 8) ^^^ crcTableEntry (x.extractLsb' 0 8) := by
  have hsplit : x = (x >>> 8 <<< 8) ^^^ (x.extractLsb' 0 8).setWidth 32 := by
    refine BitVec.eq_of_getLsbD_eq fun i hi => ?_
    by_cases h8 : i < 8
    · simp [h8, hi]
    · simp [h8, hi, Nat.add_sub_cancel' (Nat.le_of_not_lt h8)]
  have hlow : ∀ i < 8, (x >>> 8 <<< 8).getLsbD i = false := fun i hi => by simp [hi]
  have hback : x >>> 8 <<< 8 >>> 8 = x >>> 8 := by
    refine BitVec.eq_of_getLsbD_eq fun i hi => ?_
    by_cases htop : 8 + i < 32
    · simp [htop]
    · simp [htop, BitVec.getLsbD_of_ge x (8 + i) (by omega)]
  calc crcShifts 8 x = crcShifts 8 (x >>> 8 <<< 8) ^^^ crcShifts 8 ((x.extractLsb' 0 8).setWidth 32) := by
        rw [← crcShifts_xor, ← hsplit]
    _ = (x >>> 8) ^^^ crcTableEntry (x.extractLsb' 0 8) := by rw [crcShifts_of_low_zero 8 hlow, hback]; rfl

theorem crcUpdate_eq_byTable (c : BitVec 32) (b : Byte) : crcUpdate c b = crcUpdateByTable c b := by
  have hbyte : b.setWidth 32 >>> 8 = 0#32 := by
    apply BitVec.eq_of_toNat_eq
    have := b.isLt
    rw [BitVec.toNat_ushiftRight, BitVec.toNat_setWidth, Nat.shiftRight_eq_div_pow, BitVec.toNat_ofNat]
    omega
  rw [crcUpdate, crcShifts_eight, BitVec.ushiftRight_xor_distrib, hbyte, BitVec.xor_zero]
  rfl

/-- Settles O7: by linearity the register splits into its low byte, which the table answers for, and the rest. -/
theorem tableDrivenCrcIsEquivalent : Obligations.TableDrivenCrcIsEquivalent :=
  ⟨crcUpdate_eq_byTable, by decide, by decide, by decide, by decide, by decide, by decide⟩

/-! ## The running register and the checksum of the whole (R105) -/

/-- From a state between datagrams the running register has folded in the covered bytes of what was received. -/
theorem receiveBytes_crc {s : State} (h : BetweenDatagrams s) {d : List Byte} (hd : d.length ≤ 65547) :
    (d.foldl receiveByte s).crc = crcRegister crcInit (d.take 8 ++ d.drop 12) := by
  obtain ⟨hcount, hstored⟩ := receiveBytes_stored s d h.1
  have hn : (d.foldl receiveByte s).rxcnt.toNat = d.length := by omega
  rw [receiveBytes_crcTracks d h.crcTracks, coveredBytes_eq _ (by omega), hn, hstored hd]

/-- Settles O10: the running register tracks the covered bytes, and a size of 12 + LEN leaves nothing behind the payload. -/
theorem streamingChecksumEqualsBatch : Obligations.StreamingChecksumEqualsBatch := by
  intro s d hb hd
  obtain ⟨t, outs, hrun, hquiet, -, -⟩ := runExec_bytesAndNops (d.map .rxb) s (bytesAndNops_map_rxb d)
  rw [presentedBytes_map_rxb] at hquiet
  have hcrc : t.quiet.crc = (d.foldl receiveByte s).quiet.crc := by rw [hquiet]
  rw [State.quiet_crc, State.quiet_crc] at hcrc
  have hbatch : crcFinal t.crc = crc32 (d.take 8 ++ d.drop 12) := by rw [hcrc, receiveBytes_crc hb hd, crc32]
  refine ⟨t, outs, hrun, hbatch, fun hsize => ?_⟩
  rw [List.take_of_length_le (l := d.drop 12) (by rw [List.length_drop]; omega)]
  exact hbatch

/-! ## Strings that differ in one byte (R108) -/

theorem crcRegister_injective_register (m : List Byte) : Function.Injective fun c => crcRegister c m := by
  induction m with
  | nil => exact Function.injective_id
  | cons b m ih => exact ih.comp (crcUpdate_injective_register b)

theorem crc32_ne_of_one_byte (pre post : List Byte) {b b' : Byte} (h : b ≠ b') :
    crc32 (pre ++ b :: post) ≠ crc32 (pre ++ b' :: post) := fun heq => by
  have hreg : crcRegister crcInit (pre ++ b :: post) = crcRegister crcInit (pre ++ b' :: post) :=
    (BitVec.xor_left_inj _).1 heq
  rw [crcRegister_append, crcRegister_append] at hreg
  exact h (crcUpdate_injective_byte _ (crcRegister_injective_register post hreg))

theorem crc32_modify_ne (pre post : List Byte) {m : List Byte} {i : Nat} (hi : i < m.length) {f : Byte → Byte}
    (hf : ∀ b, f b ≠ b) : crc32 (pre ++ m.modify i f ++ post) ≠ crc32 (pre ++ m ++ post) := by
  have hm : m.take i ++ m[i] :: m.drop (i + 1) = m := by simp
  have hne := crc32_ne_of_one_byte (pre ++ m.take i) (m.drop (i + 1) ++ post) (hf m[i])
  rw [List.modify_eq_take_cons_drop hi]
  conv_rhs => rw [← hm]
  simpa only [List.append_assoc, List.cons_append] using hne

/-- A change of one byte at a covered offset changes the checksum of the covered bytes. -/
theorem crc32_covered_modify_ne {d : List Byte} {i : Nat} (hi : i < d.length) (hc : i < 8 ∨ 12 ≤ i) {f : Byte → Byte}
    (hf : ∀ b, f b ≠ b) :
    crc32 ((d.modify i f).take 8 ++ (d.modify i f).drop 12) ≠ crc32 (d.take 8 ++ d.drop 12) := by
  rw [List.take_modify]
  rcases hc with h8 | h12
  · rw [List.drop_modify_of_lt f i 12 d (by omega)]
    exact crc32_modify_ne [] (d.drop 12) (by rw [List.length_take]; omega) hf
  · rw [List.drop_modify_of_ge f i 12 d h12, List.modify_eq_self (by rw [List.length_take]; omega)]
    simpa using crc32_modify_ne (d.take 8) [] (m := d.drop 12) (i := i - 12) (by rw [List.length_drop]; omega) hf

/-! ## Classification of a byte string, test by test (R124, R130, R131) -/

/-- The low bit of a sequence byte is its value in range (R126). -/
theorem getLsbD_bitByte (b : Bit) : (bitByte b).getLsbD 0 = b := by cases b <;> rfl

theorem bitByte_injective : Function.Injective bitByte :=
  Function.LeftInverse.injective (g := (BitVec.getLsbD · 0)) getLsbD_bitByte

/-- The classification of twelve leading bytes and a payload, by their fields. -/
theorem classify_prefix (cfg : Config.Cfg) (src dst : BitVec 16) (seq flag : Byte) (len : BitVec 16) (csum : BitVec 32)
    (p : List Byte) (e : Bit) :
    classify cfg (.bytes (dataPrefix src dst seq flag len csum ++ p)) e =
      if p.length ≠ len.toNat then ⟨.isCorrupt, .malformed, some .length, none⟩
      else if 1 < seq.toNat then ⟨.isCorrupt, .malformed, some .seqRange, none⟩
      else if cfg.crc (bytesBe16 src ++ bytesBe16 dst ++ [seq, flag] ++ bytesBe16 len ++ p) ≠ csum then
        ⟨.isCorrupt, .checksumMismatch, none, none⟩
      else if seq ≠ bitByte e then ⟨.wrongAlternating, .sequenceMismatch, none, none⟩
      else ⟨.allFine, .noError, none, some p⟩ := by
  rw [classify, classifyWith, decodeView, decodeFields_prefix]
  by_cases hlen : p.length ≠ len.toNat
  · simp only [if_pos hlen]; rfl
  by_cases hseq : 1 < seq.toNat
  · simp only [if_neg hlen, if_pos hseq]; rfl
  have hbit : seq = bitByte e ↔ seq.getLsbD 0 = e := by
    rw [eq_bitByte_of_le_one hseq, bitByte_injective.eq_iff, getLsbD_bitByte]
  simp only [if_neg hlen, if_neg hseq, batchChecksumOk, bitMatch, decide_eq_true_eq, beq_iff_eq, hbit, ne_eq, ite_not]
  rfl

/-- The classification of a byte string: the tests in their order, the first that fails giving the verdict. -/
theorem classify_bytes (cfg : Config.Cfg) (d : List Byte) (e : Bit) :
    classify cfg (.bytes d) e =
      if d.length < 12 then ⟨.isCorrupt, .malformed, some .short, none⟩
      else if d.length ≠ 12 + (be16 (d.getD 6 0) (d.getD 7 0)).toNat then ⟨.isCorrupt, .malformed, some .length, none⟩
      else if 1 < (d.getD 4 0).toNat then ⟨.isCorrupt, .malformed, some .seqRange, none⟩
      else if cfg.crc (d.take 8 ++ d.drop 12) ≠ be32 (d.getD 8 0) (d.getD 9 0) (d.getD 10 0) (d.getD 11 0) then
        ⟨.isCorrupt, .checksumMismatch, none, none⟩
      else if d.getD 4 0 ≠ bitByte e then ⟨.wrongAlternating, .sequenceMismatch, none, none⟩
      else ⟨.allFine, .noError, none, some (d.drop 12)⟩ := by
  split
  · next hshort => rw [classify, classifyWith, decodeView, decodeFields_short hshort]; rfl
  next hlong =>
  obtain ⟨src, dst, seq, flag, len, csum, p, rfl⟩ := eq_dataPrefix_append (Nat.le_of_not_lt hlong)
  have hlen : be16 ((dataPrefix src dst seq flag len csum ++ p).getD 6 0)
      ((dataPrefix src dst seq flag len csum ++ p).getD 7 0) = len := be16_bytes len
  have hclaimed : be32 ((dataPrefix src dst seq flag len csum ++ p).getD 8 0)
      ((dataPrefix src dst seq flag len csum ++ p).getD 9 0) ((dataPrefix src dst seq flag len csum ++ p).getD 10 0)
      ((dataPrefix src dst seq flag len csum ++ p).getD 11 0) = csum := be32_bytes csum
  simp only [classify_prefix, hlen, hclaimed, List.length_append, dataPrefix_length, ne_eq, Nat.add_right_inj]
  rfl

/-- A datagram is corrupt where it is classified so, whatever bit is expected (R129, R130). -/
theorem isCorrupt_iff_classify (cfg : Config.Cfg) (rx : RxView) (e : Bit) :
    isCorrupt cfg rx = true ↔ (classify cfg rx e).event = .isCorrupt := by
  rcases classifyWith_cases (batchChecksumOk cfg) rx e with ⟨c, hd, hv⟩ | ⟨r, hd, hok, hv⟩ | ⟨r, hd, hok, -, hv⟩ |
    ⟨r, hd, hok, -, hv⟩ <;> rw [classify, hv, isCorrupt, hd] <;> simp [*]

/-- A datagram is not corrupt where it passes the structural tests and the checksum's. -/
theorem isCorrupt_bytes_eq_false_iff (cfg : Config.Cfg) (d : List Byte) :
    isCorrupt cfg (.bytes d) = false ↔
      12 ≤ d.length ∧ d.length = 12 + (be16 (d.getD 6 0) (d.getD 7 0)).toNat ∧ (d.getD 4 0).toNat ≤ 1 ∧
      cfg.crc (d.take 8 ++ d.drop 12) = be32 (d.getD 8 0) (d.getD 9 0) (d.getD 10 0) (d.getD 11 0) := by
  rw [← Bool.not_eq_true, isCorrupt_iff_classify cfg _ false, classify_bytes, ← Nat.not_lt, ← Nat.not_lt (a := 1)]
  split_ifs <;> simp_all

/-! ## One flipped bit (R92, R108) -/

theorem be16_inj {a b a' b' : Byte} : be16 a b = be16 a' b' ↔ a = a' ∧ b = b' := by
  refine ⟨fun h => ?_, fun ⟨ha, hb⟩ => by rw [ha, hb]⟩
  simpa [bytesBe16_be16] using congrArg bytesBe16 h

theorem be32_inj {a b c d a' b' c' d' : Byte} : be32 a b c d = be32 a' b' c' d' ↔ a = a' ∧ b = b' ∧ c = c' ∧ d = d' := by
  refine ⟨fun h => ?_, fun ⟨ha, hb, hc, hd⟩ => by rw [ha, hb, hc, hd]⟩
  simpa [bytesBe32_be32] using congrArg bytesBe32 h

theorem xor_bit_ne (b : Byte) {j : Nat} (hj : j < 8) : b ^^^ (1#8 <<< j) ≠ b := fun h => by
  have hbit : ∀ j < 8, 1#8 <<< j ≠ 0#8 := by decide
  refine hbit j hj ((BitVec.xor_right_inj b).1 ?_)
  rw [h, BitVec.xor_zero]

/-- A bit flipped in a sequence byte in range leaves the range unless it is bit 0. -/
theorem one_lt_xor_bit_iff {b : Byte} (hb : b.toNat ≤ 1) {j : Nat} (hj : j < 8) :
    1 < (b ^^^ (1#8 <<< j)).toNat ↔ j ≠ 0 := by
  rw [eq_bitByte_of_le_one (Nat.not_lt.2 hb)]
  have hbits : ∀ bit, ∀ j < 8, (1 < (bitByte bit ^^^ (1#8 <<< j)).toNat ↔ j ≠ 0) := by decide
  exact hbits _ j hj

@[simp] theorem flipBit_length (k : Nat) (d : List Byte) : (flipBit k d).length = d.length := List.length_modify ..

theorem getD_flipBit (k : Nat) {d : List Byte} {i : Nat} (hi : i < d.length) :
    (flipBit k d).getD i 0 = if k / 8 = i then d.getD i 0 ^^^ (1#8 <<< (k % 8)) else d.getD i 0 := by
  rw [List.getD_eq_getElem?_getD, List.getD_eq_getElem?_getD, flipBit, List.getElem?_modify, List.getElem?_eq_getElem hi]
  rfl

theorem getD_flipBit_eq_iff (k : Nat) {d : List Byte} {i : Nat} (hi : i < d.length) :
    (flipBit k d).getD i 0 = d.getD i 0 ↔ k / 8 ≠ i := by
  rw [getD_flipBit k hi]
  split
  · next h => simp [h, xor_bit_ne _ (Nat.mod_lt k (by decide : 0 < 8))]
  · next h => simp [h]

/-- A flipped bit breaks the checksum's agreement: it lies in the covered bytes or in the claimed checksum, never in both. -/
theorem checksum_flipBit_ne {d : List Byte} {k : Nat} (h12 : 12 ≤ d.length) (hk : k < 8 * d.length)
    (h : isoHdlc.crc (d.take 8 ++ d.drop 12) = be32 (d.getD 8 0) (d.getD 9 0) (d.getD 10 0) (d.getD 11 0)) :
    isoHdlc.crc ((flipBit k d).take 8 ++ (flipBit k d).drop 12) ≠
      be32 ((flipBit k d).getD 8 0) ((flipBit k d).getD 9 0) ((flipBit k d).getD 10 0) ((flipBit k d).getD 11 0) := by
  have hclaimed : be32 ((flipBit k d).getD 8 0) ((flipBit k d).getD 9 0) ((flipBit k d).getD 10 0)
      ((flipBit k d).getD 11 0) = be32 (d.getD 8 0) (d.getD 9 0) (d.getD 10 0) (d.getD 11 0) ↔ (k / 8 < 8 ∨ 12 ≤ k / 8) := by
    rw [be32_inj, getD_flipBit_eq_iff k (by omega), getD_flipBit_eq_iff k (by omega), getD_flipBit_eq_iff k (by omega),
      getD_flipBit_eq_iff k (by omega)]
    omega
  by_cases hc : k / 8 < 8 ∨ 12 ≤ k / 8
  · rw [hclaimed.2 hc, ← h]
    exact crc32_covered_modify_ne (by omega) hc fun b => xor_bit_ne b (Nat.mod_lt k (by decide))
  · have hcovered : (flipBit k d).take 8 ++ (flipBit k d).drop 12 = d.take 8 ++ d.drop 12 := by
      rw [flipBit, List.take_modify, List.drop_modify_of_lt _ _ _ _ (by omega),
        List.modify_eq_self (by rw [List.length_take]; omega)]
    rw [hcovered, h]
    exact fun heq => hc (hclaimed.1 heq.symm)

/-- The classification of a datagram with one bit flipped: the first test that reads the bit finds it. -/
theorem classify_flipBit {d : List Byte} (h : isCorrupt isoHdlc (.bytes d) = false) {k : Nat} (hk : k < 8 * d.length)
    (e : Bit) :
    classify isoHdlc (.bytes (flipBit k d)) e =
      if k / 8 = 6 ∨ k / 8 = 7 then ⟨.isCorrupt, .malformed, some .length, none⟩
      else if k / 8 = 4 ∧ k % 8 ≠ 0 then ⟨.isCorrupt, .malformed, some .seqRange, none⟩
      else ⟨.isCorrupt, .checksumMismatch, none, none⟩ := by
  obtain ⟨h12, hlen, hseq, hcrc⟩ := (isCorrupt_bytes_eq_false_iff isoHdlc d).1 h
  have hlenTest : d.length ≠ 12 + (be16 ((flipBit k d).getD 6 0) ((flipBit k d).getD 7 0)).toNat ↔
      k / 8 = 6 ∨ k / 8 = 7 := by
    have hfield := be16_inj (a := (flipBit k d).getD 6 0) (b := (flipBit k d).getD 7 0) (a' := d.getD 6 0) (b' := d.getD 7 0)
    rw [getD_flipBit_eq_iff k (by omega), getD_flipBit_eq_iff k (by omega), ← BitVec.toNat_inj] at hfield
    omega
  have hseqTest : 1 < ((flipBit k d).getD 4 0).toNat ↔ k / 8 = 4 ∧ k % 8 ≠ 0 := by
    rw [getD_flipBit k (by omega)]
    split
    · next h4 => rw [one_lt_xor_bit_iff hseq (Nat.mod_lt k (by decide))]; simp only [h4, true_and]
    · next h4 => simp only [h4, false_and, iff_false]; omega
  rw [classify_bytes, flipBit_length, if_neg (Nat.not_lt.2 h12)]
  simp only [hlenTest, hseqTest, if_pos (checksum_flipBit_ne h12 hk hcrc)]

/-- Settles O11: the three tests are followed through the flip, the checksum's because a register forgets no byte. -/
theorem everySingleBitFlipIsDetected : Obligations.EverySingleBitFlipIsDetected := by
  intro d h k hk
  refine ⟨(isCorrupt_iff_classify isoHdlc _ false).2 ?_, classify_flipBit h hk⟩
  rw [classify_flipBit h hk]
  split_ifs <;> rfl

end Sys2Proof.Machine

/-! # Decoding a datagram, and the parser family's statements (41_parser.md)

What `decode` makes of a byte string is written out by its bytes once. The deserializer's view is the string presented, so a
string that does not decode, an overlong one included, is MALFORMED with its cause. -/

namespace Sys2Proof

/-- `decode` of a string of at least 12 bytes: the two tests that are left, then the fields by their offsets (R124). -/
theorem decodeFields_of_le {d : List Byte} (h : 12 ≤ d.length) :
    decodeFields d =
      if d.length ≠ 12 + (be16 d[6] d[7]).toNat then .error .length
      else if 1 < d[4].toNat then .error .seqRange
      else .ok { header := d.take 8, src := be16 d[0] d[1], dst := be16 d[2] d[3], seq := d[4].getLsbD 0, flag := d[5],
                 len := be16 d[6] d[7], claimed := be32 d[8] d[9] d[10] d[11], payload := d.drop 12 } := by
  obtain ⟨src, dst, seq, flag, len, csum, p, rfl⟩ := eq_dataPrefix_append h
  simp only [decodeFields_prefix, List.length_append, dataPrefix_length]
  simp [dataPrefix, bytesBe16, bytesBe32, be16_bytes, be32_bytes]

/-- The low bit of a sequence byte in range says whether the byte is 1 (R126). -/
theorem getLsbD_zero_of_le_one {seq : Byte} (h : seq.toNat ≤ 1) : seq.getLsbD 0 = decide (seq = 1) := by
  revert seq; decide

end Sys2Proof

namespace Sys2Proof.Machine

/-- A string that does not decode is classified as corrupt, whatever checksum and bit are expected (R130). -/
theorem classify_event_of_error {d : List Byte} {c : MCause} (h : decodeFields d = .error c) (cfg : Config.Cfg) (e : Bit) :
    (classify cfg (.bytes d) e).event = .isCorrupt := by
  simp [classify, classifyWith, decodeView, h, raiseError, errorEvent]

/-- Settles O12: a string under 12 bytes is SHORT, and any other is decoded by its bytes. -/
theorem decodeTestsStructureInOrder : Obligations.DecodeTestsStructureInOrder := by
  refine fun d => ⟨decodeFields_short, fun h => ⟨fun hlen => ?length, fun hlen hseq => ?seqRange, fun hlen hseq => ?fields⟩,
    fun c cfg e hd => classify_event_of_error hd cfg e⟩ <;> rw [decodeFields_of_le h]
  case length => rw [if_pos hlen]
  case seqRange => rw [if_neg (not_not.2 hlen), if_pos hseq]
  case fields =>
    have hpayload : (d.drop 12).take (be16 d[6] d[7]).toNat = d.drop 12 :=
      List.take_of_length_le (by rw [List.length_drop]; omega)
    rw [if_neg (not_not.2 hlen), if_neg (Nat.not_lt.2 hseq), hpayload, getLsbD_zero_of_le_one hseq]

/-! ## The honest sender (R93, R134) -/

/-- An honest datagram's twelve leading bytes declare its payload's length and claim its checksum (R93). -/
theorem encodeData_eq_dataPrefix (cfg : Config.Cfg) (src dst : BitVec 16) (seq flag : Byte) (p : List Byte) :
    encodeData cfg src dst seq flag p =
      dataPrefix src dst seq flag (BitVec.ofNat 16 p.length) (computeChecksum cfg
        (bytesBe16 src ++ bytesBe16 dst ++ [seq, flag] ++ bytesBe16 (BitVec.ofNat 16 p.length)) p) ++ p := rfl

/-- `decode` of an honest datagram gives back what the sender put in, where the payload's length fits its field. -/
theorem decodeFields_encodeData (cfg : Config.Cfg) (src dst : BitVec 16) (seq : Bit) (flag : Byte) {p : List Byte}
    (hp : p.length ≤ 65535) :
    ∃ r, decodeFields (encodeData cfg src dst (bitByte seq) flag p) = .ok r ∧ r.src = src ∧ r.dst = dst ∧ r.seq = seq ∧
      r.flag = flag ∧ r.len.toNat = p.length ∧ r.claimed = computeChecksum cfg r.header p ∧ r.payload = p := by
  have hlen : (BitVec.ofNat 16 p.length).toNat = p.length := by rw [BitVec.toNat_ofNat]; omega
  have hseq : ¬ 1 < (bitByte seq).toNat := by cases seq <;> decide
  rw [encodeData_eq_dataPrefix, decodeFields_prefix, if_neg (not_not.2 hlen.symm), if_neg hseq]
  exact ⟨_, rfl, rfl, rfl, getLsbD_bitByte seq, rfl, hlen, rfl, rfl⟩

/-- Settles O14: the honest datagram decodes, and the checksum it claims is the one computed. -/
theorem honestDatagramRoundTrips : Obligations.HonestDatagramRoundTrips := by
  intro cfg src dst seq flag p hp d
  obtain ⟨r, hd, hsrc, hdst, hseq, hflag, hlen, hclaimed, hpayload⟩ := decodeFields_encodeData cfg src dst seq flag hp
  have hok : batchChecksumOk cfg r = true := by rw [batchChecksumOk, hpayload, hclaimed, decide_eq_true rfl]
  exact ⟨⟨r, hd, hsrc, hdst, hseq, hflag, hlen, hclaimed, hpayload⟩, by simp [isCorrupt, decodeView, d, hd, hok]⟩

/-! ## The deserializer (R121, R122) -/

/-- The outputs of a step have no effect on the received view (R121). -/
theorem rxView_quiet (s : State) : rxView s.quiet = rxView s := rfl

/-- Settles O15: the run ends where RXB of each byte alone does, and there RXVIEW is the datagram's view. -/
theorem deserializerKeepsEveryByte : Obligations.DeserializerKeepsEveryByte := by
  intro s ops h0 hops
  obtain ⟨t, outs, hrun, hquiet, -, -⟩ := runExec_bytesAndNops ops s hops
  have hview : rxView t = datagramView (presentedBytes ops) := by
    rw [← rxView_receiveBytes s _ h0, ← rxView_quiet, hquiet, rxView_quiet]
  exact ⟨t, outs, hrun, fun hle => hview.trans (if_pos hle), fun hge => hview.trans (if_neg (Nat.not_le.2 hge))⟩

/-! ## Datagrams that do not decode (R125, R133) -/

/-- No length field declares as many bytes as an overlong datagram has (R125). -/
theorem decodeFields_overlong {d : List Byte} (h : 65548 ≤ d.length) : decodeFields d = .error .length := by
  have hview : datagramView d = .overlong := if_neg (Nat.not_le.2 h)
  rw [← decodeView_datagramView, hview]; rfl

/-- A datagram that does not decode, received from offset 0, is reported with its cause; the session stays (R154, R155, R189). -/
theorem receiveDatagram_of_error {s : State} {d : List Byte} {c : MCause} (h0 : s.rxcnt = 0)
    (hd : decodeFields d = .error c) :
    (receiveDatagram d s).out = ⟨none, none, some ⟨.isCorrupt, .ignore, .malformed, some c⟩⟩ ∧
      SameSession s (receiveDatagram d s) := by
  have hview : decodeView (rxView (d.foldl receiveByte s)) = .error c := by
    rw [rxView_receiveBytes s d h0, decodeView_datagramView, hd]
  rw [receiveDatagram]
  rcases endDatagram_cases (d.foldl receiveByte s) with ⟨c', hc, -, he⟩ | ⟨r, hr, -⟩ | ⟨r, hr, -⟩ | ⟨r, hr, -⟩
  · cases hview.symm.trans hc
    rw [he]
    exact ⟨rfl, receiveBytes_sameSession d s⟩
  all_goals cases hview.symm.trans hr

/-- The step on a datagram that does not decode receives it whole (R78; logs 12 and 13). -/
theorem step_datagram_of_error {s : State} {d : List Byte} {rest : List Input} {c : MCause}
    (hi : s.inputs = .datagram d :: rest) (hd : decodeFields d = .error c) :
    step s = .next (receiveDatagram d (taken s)) := by
  simp [step, fetch, hi, decode, decodeData, hd, reject]

/-- Settles O16: an overlong datagram does not decode, and the step receives it whole. -/
theorem overlongDatagramIsLengthError : Obligations.OverlongDatagramIsLengthError := by
  intro s d rest ⟨h0, _⟩ hlen hi
  have hd := decodeFields_overlong hlen
  exact ⟨_, step_datagram_of_error hi hd, receiveDatagram_of_error (s := taken s) h0 hd⟩

end Sys2Proof.Machine

/-! # The alternating-bit machine, and the FSM family's statements (42_fsm.md)

What RXE does is read off from the event it reports, and what `process` does from whether it delivers: a delivery is a datagram of
the awaited bit and flips the state, and everything else keeps the session. Along a run the delivered bits, and the bits of their
ACKs, are then one alternating sequence from the bit first awaited. -/

namespace Sys2Proof.Machine

/-- Settles O38: the six rows in their parametric form (`execute_eq`). -/
theorem executeIsTheTransitionTable : Obligations.ExecuteIsTheTransitionTable := fun st =>
  ⟨execute_eq st .allFine, execute_eq st .isCorrupt, execute_eq st .wrongAlternating⟩

/-! ## RXE by the event it reports (R189, R199) -/

/-- The event of the status is the one the FSM reads (R164). -/
theorem receivedEvent_of_status {s : State} {st : Status} (h : (endDatagram s).out.status = some st) :
    receivedEvent s = st.event := by
  obtain ⟨st', hst', hev, -⟩ := endDatagram_out s
  cases hst'.symm.trans h
  exact hev.symm

/-- AllFine: the awaited datagram is delivered and acknowledged, and the state flips (R152, R153, R176). -/
theorem endDatagram_of_allFine {s : State} (h : receivedEvent s = .allFine) :
    ∃ r, decodeView (rxView s) = .ok r ∧ r.seq = expectedBit s.state ∧
      endDatagram s = { s with
        state := flipState s.state, lav := true, lab := expectedBit s.state, rxcnt := 0, crc := crcInit,
        fsmOut := some ⟨.deliver, flipState s.state⟩,
        out := ⟨some (sessionAck isoHdlc s (expectedBit s.state)), some r.payload,
                some ⟨.allFine, .deliver, .noError, none⟩⟩ } := by
  rcases endDatagram_cases s with ⟨c, -, hev, -⟩ | ⟨r, -, -, hev, -⟩ | ⟨r, -, -, -, hev, -⟩ | ⟨r, hd, -, hseq, -, he⟩
  case inr.inr.inr => exact ⟨r, hd, hseq, he⟩
  all_goals cases h.symm.trans hev

/-- IsCorrupt: the datagram is reported and its counter and CRC cleared, nothing else (R154, R155, R178). -/
theorem endDatagram_of_isCorrupt {s : State} (h : receivedEvent s = .isCorrupt) :
    ∃ st, st.event = .isCorrupt ∧ st.action = .ignore ∧
      endDatagram s = { s with
        rxcnt := 0, crc := crcInit, fsmOut := some ⟨.ignore, s.state⟩, out := ⟨none, none, some st⟩ } := by
  rcases endDatagram_cases s with ⟨c, -, -, he⟩ | ⟨r, -, -, -, he⟩ | ⟨r, -, -, -, hev, -⟩ | ⟨r, -, -, -, hev, -⟩
  · exact ⟨_, rfl, rfl, he⟩
  · exact ⟨_, rfl, rfl, he⟩
  all_goals cases h.symm.trans hev

/-- WrongAlternating: the last ACK again, if there is one, and the session stays (R156, R157, R177). -/
theorem endDatagram_of_wrongAlternating {s : State} (h : receivedEvent s = .wrongAlternating) :
    endDatagram s = { s with
      rxcnt := 0, crc := crcInit, fsmOut := some ⟨.resend, s.state⟩,
      out := ⟨if s.lav then some (sessionAck isoHdlc s s.lab) else none, none,
              some ⟨.wrongAlternating, .resend, .sequenceMismatch, none⟩⟩ } := by
  rcases endDatagram_cases s with ⟨c, -, hev, -⟩ | ⟨r, -, -, hev, -⟩ | ⟨r, -, -, -, -, he⟩ | ⟨r, -, -, -, hev, -⟩
  case inr.inr.inl => exact he
  all_goals cases h.symm.trans hev

/-- Settles O43, by `endDatagram_of_allFine` in each of the two states. -/
theorem allFineFlipsAndAcknowledges : Obligations.AllFineFlipsAndAcknowledges := by
  intro s t data st ht hst hev
  cases ht
  obtain ⟨r, -, -, he⟩ := endDatagram_of_allFine ((receivedEvent_of_status hst).trans hev)
  rw [he]
  refine ⟨fun hs => ?_, fun hs => ?_⟩ <;> rw [hs] <;> exact ⟨rfl, rfl, rfl, rfl⟩

/-- Settles O44, by `endDatagram_of_isCorrupt`. -/
theorem isCorruptNeverMutatesSession : Obligations.IsCorruptNeverMutatesSession := by
  intro s t data st ht hst hev
  cases ht
  obtain ⟨st', -, -, he⟩ := endDatagram_of_isCorrupt ((receivedEvent_of_status hst).trans hev)
  rw [he]
  exact ⟨⟨rfl, rfl, rfl, rfl, rfl⟩, rfl, rfl⟩

/-- Settles O45, by `endDatagram_of_wrongAlternating`; in a legal session LAB is the complement of the expected bit (R32). -/
theorem wrongAlternatingResendsLastAck : Obligations.WrongAlternatingResendsLastAck := by
  intro s t data st ht hst hev
  cases ht
  have he := endDatagram_of_wrongAlternating ((receivedEvent_of_status hst).trans hev)
  rw [he] at hst ⊢
  cases hst
  have hsent (hlav : s.lav = true) :
      (if s.lav then some (sessionAck isoHdlc s s.lab) else none) = some (buildAck isoHdlc s.cfgSrc s.cfgDst s.lab) :=
    if_pos hlav
  refine ⟨⟨rfl, rfl, rfl, rfl, rfl⟩, rfl, rfl, rfl, hsent, fun hlav => by simp [hlav], fun ⟨_, hlegal⟩ hlav => ?_⟩
  rw [← hlegal hlav]
  exact hsent hlav

/-! ## `process` by whether it delivers (R190) -/

@[simp] theorem expectedBit_flipState (st : FsmState) : expectedBit (flipState st) = !expectedBit st := by cases st <;> rfl

@[simp] theorem stateOfBit_expectedBit (st : FsmState) : stateOfBit (expectedBit st) = st := by cases st <;> rfl

/-- A datagram is delivered where it decodes, its checksum holds and its sequence bit is the awaited one; any other keeps the
session and is not AllFine (R163). -/
theorem process_delivers_or_keeps (cfg : Config.Cfg) (rx : RxView) (s : State) :
    ((process cfg rx s).out.deliver = none ∧ SameSession s (process cfg rx s) ∧
      ∃ st, (process cfg rx s).out.status = some st ∧ st.event ≠ .allFine) ∨
    ∃ r, decodeView rx = .ok r ∧ batchChecksumOk cfg r = true ∧ r.seq = expectedBit s.state ∧
      process cfg rx s = { s with
        state := flipState s.state, lav := true, lab := expectedBit s.state,
        out := ⟨some (sessionAck cfg s (expectedBit s.state)), some r.payload, some ⟨.allFine, .deliver, .noError, none⟩⟩,
        fsmOut := some ⟨.deliver, flipState s.state⟩ } := by
  rw [process]
  rcases processWith_cases s cfg (batchChecksumOk cfg) rx with ⟨c, -, he⟩ | ⟨r, -, -, he⟩ | ⟨r, -, -, -, he⟩ | hdelivers
  case inr.inr.inr => exact .inr hdelivers
  all_goals
    rw [he]
    exact .inl ⟨rfl, ⟨rfl, rfl, rfl, rfl, rfl⟩, _, rfl, nofun⟩

/-- A valid datagram of the other bit: the last ACK again, if there is one, and the session stays (R156, R157). -/
theorem process_of_other_bit {cfg : Config.Cfg} {rx : RxView} {s : State} {r : Fields} (hd : decodeView rx = .ok r)
    (hok : batchChecksumOk cfg r = true) (hseq : r.seq ≠ expectedBit s.state) :
    process cfg rx s = { s with
      out := ⟨if s.lav then some (sessionAck cfg s s.lab) else none, none,
              some ⟨.wrongAlternating, .resend, .sequenceMismatch, none⟩⟩,
      fsmOut := some ⟨.resend, s.state⟩ } := by
  rw [process]
  rcases processWith_cases s cfg (batchChecksumOk cfg) rx with ⟨c, hd', -⟩ | ⟨r', hd', hok', -⟩ | ⟨r', -, -, -, he⟩ |
    ⟨r', hd', -, hseq', -⟩
  · cases hd.symm.trans hd'
  · cases hd.symm.trans hd'; cases hok.symm.trans hok'
  · exact he
  · cases hd.symm.trans hd'; exact absurd hseq' hseq

/-- Settles O47: the delivery flips the awaited bit and makes its ACK the last one, so the same datagram is then one of the other
bit. -/
theorem duplicateIsReacknowledgedNotRedelivered : Obligations.DuplicateIsReacknowledgedNotRedelivered := by
  intro cfg rx s t u hdelivers
  rcases process_delivers_or_keeps cfg rx s with ⟨hnone, -⟩ | ⟨r, hd, hok, hseq, ht⟩
  · rw [hnone] at hdelivers; cases hdelivers
  have hother : r.seq ≠ expectedBit t.state := by simp [t, ht, hseq]
  have hu : u = _ := process_of_other_bit hd hok hother
  change t = _ at ht
  have hout : t.out = ⟨some (sessionAck cfg s (expectedBit s.state)), some r.payload,
      some ⟨.allFine, .deliver, .noError, none⟩⟩ := by rw [ht]
  have hagain : u.out = ⟨some (sessionAck cfg s (expectedBit s.state)), none,
      some ⟨.wrongAlternating, .resend, .sequenceMismatch, none⟩⟩ := by rw [hu, ht]; rfl
  have hsession : SameSession t u := by rw [hu]; exact ⟨rfl, rfl, rfl, rfl, rfl⟩
  rw [hout, hagain]
  refine ⟨rfl, rfl, rfl, rfl, hsession, rfl, ?_⟩
  simp [ackTrace, acksSent, sessionAck]

/-! ## Runs of datagrams: the delivered bits alternate (R163) -/

/-- Bit `k` of the alternating sequence that begins with `e`. -/
def alternatingBit (e : Bit) (k : Nat) : Bit := (k % 2 == 1) ^^ e

theorem alternatingBit_zero (e : Bit) : alternatingBit e 0 = e := Bool.false_xor e

/-- Without its first bit the sequence begins with the other one. -/
theorem alternatingBit_succ (e : Bit) (k : Nat) : alternatingBit e (k + 1) = alternatingBit (!e) k := by
  rcases Nat.mod_two_eq_zero_or_one k with h | h <;> cases e <;> simp [alternatingBit, Nat.add_mod, h]

/-- From bit 0 on, bit `k` is the parity of `k`. -/
theorem alternatingBit_false (k : Nat) : alternatingBit false k = (k % 2 == 1) := Bool.xor_false _

/-- The first `n` bits of the alternating sequence that begins with `e`. -/
def alternatingBits (e : Bit) (n : Nat) : List Bit := (List.range n).map (alternatingBit e)

theorem alternatingBits_succ (e : Bit) (n : Nat) : alternatingBits e (n + 1) = e :: alternatingBits (!e) n := by
  simp [alternatingBits, List.range_succ_eq_map, alternatingBit_zero, alternatingBit_succ]

theorem alternatingBits_false (n : Nat) : alternatingBits false n = (List.range n).map fun k => k % 2 == 1 :=
  List.map_congr_left fun k _ => alternatingBit_false k

theorem runDatagrams_cons (cfg : Config.Cfg) (rx : RxView) (rxs : List RxView) (s : State) :
    runDatagrams cfg (rx :: rxs) s =
      ((runDatagrams cfg rxs (process cfg rx s)).1,
        (process cfg rx s).out :: (runDatagrams cfg rxs (process cfg rx s)).2) := rfl

/-- An output without a delivery adds no unit, one with a delivery adds one. -/
theorem deliveries_cons (o : Out) (outs : List Out) :
    deliveries (o :: outs) = if o.deliver.isSome then deliveries outs + 1 else deliveries outs := by
  cases h : o.deliver <;> simp [deliveries, h]

theorem deliveredDatagrams_cons (rx : RxView) (rxs : List RxView) (o : Out) (outs : List Out) :
    deliveredDatagrams (rx :: rxs) (o :: outs) =
      if o.deliver.isSome then rx :: deliveredDatagrams rxs outs else deliveredDatagrams rxs outs := by
  cases h : o.deliver <;> simp [deliveredDatagrams, h]

/-- From any state: STATE is the first awaited bit's after as many flips as deliveries, and the delivered datagrams and their ACKs
carry the alternating bits from that one. -/
theorem runDatagrams_alternate (cfg : Config.Cfg) (rxs : List RxView) (s : State) :
    let outs := (runDatagrams cfg rxs s).2
    let bits := alternatingBits (expectedBit s.state) (deliveries outs)
    (runDatagrams cfg rxs s).1.state = stateOfBit (alternatingBit (expectedBit s.state) (deliveries outs)) ∧
    (deliveredDatagrams rxs outs).map sequenceBit = bits.map some ∧
    (outs.filter fun o => o.deliver.isSome).map Out.ack = bits.map fun b => some (sessionAck cfg s b) := by
  induction rxs generalizing s with
  | nil => simp [runDatagrams, deliveries, deliveredDatagrams, alternatingBits, alternatingBit_zero]
  | cons rx rxs ih =>
    obtain ⟨hstate, hseqs, hacks⟩ := ih (process cfg rx s)
    simp only [runDatagrams_cons, deliveries_cons, deliveredDatagrams_cons, List.filter_cons]
    rcases process_delivers_or_keeps cfg rx s with ⟨hnone, ⟨hst, -, -, hsrc, hdst⟩, -⟩ | ⟨r, hd, -, hseq, he⟩
    · simp only [sessionAck, hst, hsrc, hdst] at hstate hseqs hacks
      simpa [hnone] using ⟨hstate, hseqs, hacks⟩
    · have hbit : sequenceBit rx = some (expectedBit s.state) := by simp [sequenceBit, hd, hseq, Except.toOption]
      have hflip : (process cfg rx s).state = flipState s.state := by rw [he]
      have hack : (process cfg rx s).out.ack = some (sessionAck cfg s (expectedBit s.state)) := by rw [he]
      have hdelivers : (process cfg rx s).out.deliver.isSome = true := by rw [he]; rfl
      have hports : sessionAck cfg (process cfg rx s) = sessionAck cfg s := by rw [he]; rfl
      rw [hflip, expectedBit_flipState] at hstate hseqs hacks
      rw [hports] at hacks
      simp [hdelivers, alternatingBit_succ, alternatingBits_succ, hbit, hack, hstate, hseqs, hacks]

/-- The ACK trace of outputs whose ACKs are the session's for given bits is those bits (R18). -/
theorem ackTrace_of_map_ack {outs : List Out} {bits : List Bit} {cfg : Config.Cfg} {s : State}
    (h : outs.map Out.ack = bits.map fun b => some (sessionAck cfg s b)) : ackTrace outs = bits := by
  have hsent : acksSent outs = bits.map (sessionAck cfg s) := by
    calc outs.filterMap Out.ack = (outs.map Out.ack).filterMap id := by rw [List.filterMap_map]; rfl
      _ = bits.map (sessionAck cfg s) := by rw [h, List.filterMap_map]; exact congrFun List.filterMap_eq_map _
  simp [ackTrace, hsent, Function.comp_def, sessionAck]

/-- Settles O46: what is not AllFine keeps the session (`process_delivers_or_keeps`), and from WaitForZero the alternating bits are
the parities. -/
theorem deliveredUnitsAlternate : Obligations.DeliveredUnitsAlternate := by
  refine ⟨fun cfg rx s st hst hev => ?keeps, fun cfg rxs s hs => ?alternates⟩
  case keeps =>
    rcases process_delivers_or_keeps cfg rx s with ⟨-, hsame, -⟩ | ⟨r, -, -, -, he⟩
    · exact hsame
    · rw [he] at hst
      cases hst
      exact absurd rfl hev
  case alternates =>
    obtain ⟨hstate, hseqs, hacks⟩ := runDatagrams_alternate cfg rxs s
    have htrace := ackTrace_of_map_ack hacks
    simp only [hs, expectedBit, alternatingBit_false, alternatingBits_false, List.map_map, Function.comp_def]
      at hstate hseqs hacks htrace
    exact ⟨hstate, hseqs, hacks, htrace⟩

end Sys2Proof.Machine

/-! # What leaves the block, and the acknowledgment family's statements (43_ack_framer.md)

An operation or a step that emits anything is RXE after the bytes of the datagram presented, of which there may be none
(`exec_of_emits`, `step_of_emits`). So the statements about every output are statements about RXE: its ACK is that of the LAV and
LAB it leaves, and on a corrupt datagram it emits nothing. -/

namespace Sys2Proof.Machine

/-! ## The ACK RXE emits (R176, R177) -/

theorem expectedBit_eq_iff (st : FsmState) (b : Bit) : expectedBit st = b ↔ st = stateOfBit b := by
  cases st <;> cases b <;> decide

/-- RXE acknowledges the bit it awaits on AllFine, and the last one again on WrongAlternating. -/
theorem emittedAckBit_eq_some_iff (s : State) (b : Bit) :
    emittedAckBit s = some b ↔
      receivedEvent s = .allFine ∧ s.state = stateOfBit b ∨
      receivedEvent s = .wrongAlternating ∧ s.lav = true ∧ s.lab = b := by
  rw [emittedAckBit, execute_eq]
  cases receivedEvent s <;> simp [actionAckBit, expectedBit_eq_iff]

/-- An ACK that RXE emits is the one of the LAV and LAB it leaves. -/
theorem endDatagram_ack {s : State} {a : List Byte} (h : (endDatagram s).out.ack = some a) :
    (endDatagram s).lav = true ∧ a = sessionAck isoHdlc (endDatagram s) (endDatagram s).lab := by
  cases hev : receivedEvent s with
  | allFine =>
    obtain ⟨r, -, -, he⟩ := endDatagram_of_allFine hev
    rw [he] at h ⊢
    cases h
    exact ⟨rfl, rfl⟩
  | isCorrupt =>
    obtain ⟨st, -, -, he⟩ := endDatagram_of_isCorrupt hev
    rw [he] at h
    cases h
  | wrongAlternating =>
    rw [endDatagram_of_wrongAlternating hev] at h ⊢
    cases hlav : s.lav with
    | false => simp [hlav] at h
    | true =>
      rw [hlav] at h
      cases h
      exact ⟨rfl, rfl⟩

/-- Settles O48: the condition of `ackStep` is that of the statement, by `emittedAckBit_eq_some_iff`. -/
theorem ackWordsEmitBuildAck : Obligations.AckWordsEmitBuildAck := by
  intro s i b src dst csum hi h acked
  have hexec : exec i s = .next (ackStep b s) := by
    rcases hi with ⟨rfl, rfl⟩ | ⟨rfl, rfl⟩ <;> rfl
  refine ⟨fun hacked => ?emits, fun hnot => ?silent⟩
  case emits =>
    have hbit := (emittedAckBit_eq_some_iff s b).2 hacked
    obtain ⟨-, -, -, -, hack⟩ := endDatagram_out s
    refine ⟨endDatagram s, by rw [hexec, ackStep, if_pos hbit], rfl, ?_⟩
    rw [hack, hbit]
    rfl
  case silent =>
    rw [hexec, ackStep, if_neg (mt (emittedAckBit_eq_some_iff s b).1 hnot)]
    rfl

/-! ## Whatever emits is RXE (R179, R186 to R189) -/

/-- An output record that holds an ACK or a delivery (R17). -/
def Out.Emits (o : Out) : Prop := o.ack.isSome = true ∨ o.deliver.isSome = true

theorem Out.not_emits_none : ¬ Out.none.Emits := by simp [Out.Emits, Out.none]

theorem Out.emits_of_ack {o : Out} {a : List Byte} (h : o.ack = some a) : o.Emits := .inl (by rw [h]; rfl)

theorem ackStep_of_emits {b : Bit} {s : State} (h : (ackStep b s).out.Emits) : ackStep b s = endDatagram s := by
  unfold ackStep at h ⊢
  split at h
  · next hbit => exact if_pos hbit
  · exact absurd h Out.not_emits_none

theorem fsmStep_of_emits {st : FsmState} {ev : Event} {s : State} (h : (fsmStep st ev s).out.Emits) :
    fsmStep st ev s = endDatagram s := by
  unfold fsmStep at h ⊢
  split at h
  · next hword => exact if_pos hword
  · exact absurd h Out.not_emits_none

/-- An operation that emits receives the bytes of the datagram it presents, if it presents one, and ends with RXE. -/
theorem exec_of_emits {i : Instr} {s t : State} (h : exec i s = .next t) (ht : t.out.Emits) :
    t = receiveDatagram (presentedDatagram (encode i)) s := by
  cases i with
  | rst | nop | rxb | cmdRsvd => cases h; exact absurd ht Out.not_emits_none
  | rxe | data0 | data1 => cases h; rfl
  | ack0 | ack1 => cases h; exact ackStep_of_emits ht
  | fsmZAllFine | fsmOAllFine | fsmZIsCorrupt | fsmOIsCorrupt | fsmZWrongAlt | fsmOWrongAlt =>
    cases h; exact fsmStep_of_emits ht

/-- Of the encodings the decoder rejects only a datagram can make the block emit. -/
theorem reject_of_emits {e : Enc} {s t : State} (h : reject e s = .next t) (ht : t.out.Emits) :
    t = receiveDatagram (presentedDatagram e) s := by
  cases e with
  | cmd | ack | fsm => cases h; exact absurd ht Out.not_emits_none
  | data d => cases h; rfl

/-- A step that emits receives the bytes of the datagram presented, if one is, and ends with RXE. -/
theorem step_of_emits {s t : State} (h : step s = .next t) (ht : t.out.Emits) :
    ∃ e, fetch s = .word e ∧ t = receiveDatagram (presentedDatagram e) (taken s) := by
  rcases step_cases (s := s) with ⟨-, he⟩ | ⟨src, dst, -, -, he⟩ | ⟨e, i, hf, hd, he⟩ | ⟨e, c, hf, -, he⟩ <;> rw [he] at h
  · cases h; exact absurd ht Out.not_emits_none
  · cases h; exact absurd ht Out.not_emits_none
  · obtain ⟨rfl, -⟩ := encode_of_decode hd
    exact ⟨_, hf, exec_of_emits h ht⟩
  · exact ⟨e, hf, reject_of_emits h ht⟩

/-- Settles O49: the ACK is RXE's of the bit LAB, and RXE and the bytes before it keep the latched ports. -/
theorem everyAckIsOneOfTwo : Obligations.EveryAckIsOneOfTwo := by
  intro i s t a h ha
  have ht := exec_of_emits h (Out.emits_of_ack ha)
  obtain ⟨-, -, hsrc, hdst, -⟩ := receiveDatagram_frame s (presentedDatagram (encode i))
  rw [← ht] at hsrc hdst
  have hack : a = buildAck isoHdlc t.cfgSrc t.cfgDst t.lab := by
    rw [ht] at ha ⊢
    obtain ⟨-, hbuilt⟩ := endDatagram_ack ha
    exact hbuilt
  rw [hsrc, hdst] at hack
  refine ⟨?_, by rw [hack, buildAck_length], hsrc, hdst⟩
  cases hlab : t.lab with
  | false => exact .inl (by rw [hack, hlab])
  | true => exact .inr (by rw [hack, hlab])

/-- Settles O50: the ACK is RXE's of the bit LAB, which the invariant ties to STATE after the step. -/
theorem acksCarryTheLastAcknowledgedBit : Obligations.AcksCarryTheLastAcknowledgedBit := by
  intro s t a hinv h ha
  obtain ⟨-, hlegal⟩ := (step_inv hinv h).sessionLegal
  obtain ⟨e, -, rfl⟩ := step_of_emits h (Out.emits_of_ack ha)
  obtain ⟨hlav, rfl⟩ := endDatagram_ack ha
  exact ⟨hlav, rfl, ackBit_buildAck .., hlegal hlav⟩

/-! ## RXE emits on no corrupt datagram (R178) -/

/-- Where the running register tracks the bytes received, what RXE emits anything for passes the structure and checksum tests. -/
theorem not_isCorrupt_of_emits {s : State} (hcrc : Inv.CrcTracks s) (h : (endDatagram s).out.Emits) :
    isCorrupt isoHdlc (rxView s) = false := by
  rw [← Bool.not_eq_true]
  intro hcorrupt
  obtain ⟨err, mcause, hout, -⟩ := process_of_isCorrupt hcorrupt s
  rw [endDatagram_eq_process hcrc] at h
  simp [Out.Emits, hout] at h

/-- A datagram that makes the block emit is received and judged in an RXE, and is not corrupt. -/
theorem receiveDatagram_of_emits {d : List Byte} {s : State} (hinv : Inv s) (h : (receiveDatagram d s).out.Emits) :
    (∀ data, exec (.rxe data) (d.foldl receiveByte s) = .next (receiveDatagram d s)) ∧
      isCorrupt isoHdlc (rxView (d.foldl receiveByte s)) = false :=
  ⟨fun _ => rfl, not_isCorrupt_of_emits (receiveBytes_inv d hinv).crcTracks h⟩

/-- Settles O51: an operation and a step that emits is a datagram received, by `exec_of_emits` and `step_of_emits`. -/
theorem outputsOnlyInTheStepOfAnRxe : Obligations.OutputsOnlyInTheStepOfAnRxe := by
  refine ⟨fun i s t hinv h ht => ?_, fun s t hinv h ht => ?_⟩
  · cases exec_of_emits h ht
    exact receiveDatagram_of_emits hinv ht
  · obtain ⟨e, hf, rfl⟩ := step_of_emits h ht
    exact ⟨e, hf, receiveDatagram_of_emits (taken_inv hinv) ht⟩

end Sys2Proof.Machine

/-! # The port operations, and their family's statements (44_port_operations.md)

RXE is `process` on the received view, so a datagram presented byte by byte, or whole, is `process` on the datagram. What RXE reads
of a state is its session, that view and a running register that tracks it; `SameReception` relates two states that agree on these,
whatever else their scratch registers hold, and every operation keeps it. -/

namespace Sys2Proof.Machine

/-! ## RXE and the received view (R189, R196) -/

/-- Settles O20: the invariant's running register makes the recomputed checksum's judgement (`endDatagram_eq_process`). -/
theorem rxeIsProcessOnReceivedView : Obligations.RxeIsProcessOnReceivedView := fun _ _ hinv =>
  congrArg Host.Outcome.next (endDatagram_eq_process hinv.crcTracks)

/-- `process` reads a view through its decoding alone. -/
theorem process_of_decodeView {rx rx' : RxView} (h : decodeView rx = decodeView rx') (cfg : Config.Cfg) (s : State) :
    process cfg rx s = process cfg rx' s := by
  simp only [process, processWith, classifyWith_of_decodeView h]

/-- Settles O28: the run ends as the whole datagram does, and an overlong view decodes as the string's bytes do. -/
theorem presentedDatagramIsProcessed : Obligations.PresentedDatagramIsProcessed := by
  intro s ops data hbetween hops p
  obtain ⟨outs, hrun, hlen, hnone⟩ := runExec_presentedDatagram hops s data
  obtain ⟨hout, hsession, hafter⟩ := receiveDatagram_eq_process hbetween (presentedBytes ops)
  have hp : p = process isoHdlc (.bytes (presentedBytes ops)) s :=
    process_of_decodeView (decodeView_datagramView _) isoHdlc s
  rw [hout, ← hp] at hrun
  rw [← hp] at hsession
  exact ⟨_, outs, hrun, hlen, hnone, hsession, hafter⟩

/-! ## Two blocks that have received the same (R39) -/

/-- What the outputs of a block depend on is the same in two states: the session, the configuration inputs and the datagram
received so far, which both running registers track. -/
structure SameReception (s t : State) : Prop where
  session    : SameSession s t
  ackSrcPort : t.ackSrcPort = s.ackSrcPort
  ackDstPort : t.ackDstPort = s.ackDstPort
  rxcnt      : t.rxcnt = s.rxcnt
  view       : rxView t = rxView s
  tracks     : Inv.CrcTracks s
  tracks'    : Inv.CrcTracks t

/-- Between datagrams nothing of the scratch registers is in view. -/
theorem rxView_of_betweenDatagrams {s : State} (h : BetweenDatagrams s) : rxView s = .bytes [] := by
  obtain ⟨hrxcnt, -⟩ := h
  simp [rxView, hrxcnt, Config.rxcntSat]

theorem sameReception_of_betweenDatagrams {s t : State} (hs : BetweenDatagrams s) (ht : BetweenDatagrams t)
    (session : SameSession s t) (hsrc : t.ackSrcPort = s.ackSrcPort) (hdst : t.ackDstPort = s.ackDstPort) :
    SameReception s t where
  session := session
  ackSrcPort := hsrc
  ackDstPort := hdst
  rxcnt := ht.1.trans hs.1.symm
  view := (rxView_of_betweenDatagrams ht).trans (rxView_of_betweenDatagrams hs).symm
  tracks := hs.crcTracks
  tracks' := ht.crcTracks

theorem receiveByte_sameSession (s : State) (b : Byte) : SameSession s (receiveByte s b) := receiveBytes_sameSession [b] s

/-- States in the sessions of two states in the same session are in the same session. -/
theorem SameSession.congr {s s' t t' : State} (hs : SameSession s s') (ht : SameSession t t') (h : SameSession s t) :
    SameSession s' t' := by
  obtain ⟨hst, hlav, hlab, hsrc, hdst⟩ := hs
  exact SameSession.trans ⟨hst.symm, hlav.symm, hlab.symm, hsrc.symm, hdst.symm⟩ (h.trans ht)

/-- RXVIEW after a byte is a function of the counter, RXVIEW before it and the byte (R121, R122). -/
theorem rxView_receiveByte_congr {s t : State} (hcount : t.rxcnt = s.rxcnt) (hview : rxView t = rxView s) (b : Byte) :
    rxView (receiveByte t b) = rxView (receiveByte s b) := by
  rcases Nat.lt_or_ge s.rxcnt.toNat 65547 with hlt | hge
  · have hlt' : t.rxcnt.toNat < 65547 := hcount ▸ hlt
    have hstored : storedBytes t t.rxcnt.toNat = storedBytes s s.rxcnt.toNat := by
      rw [rxView_of_lt t (by omega), rxView_of_lt s (by omega)] at hview
      exact RxView.bytes.inj hview
    have hgrown {u : State} (hu : u.rxcnt.toNat < 65547) :
        rxView (receiveByte u b) = .bytes (storedBytes u u.rxcnt.toNat ++ [b]) := by
      have hsucc := receiveByte_rxcnt_succ u b (by omega)
      rw [rxView_of_lt _ (by omega), hsucc, storedBytes_receiveByte u b hu]
    rw [hgrown hlt, hgrown hlt', hstored]
  · have hoverlong {u : State} (hu : 65547 ≤ u.rxcnt.toNat) : rxView (receiveByte u b) = .overlong :=
      rxView_of_ge _ (by rw [receiveByte_rxcnt]; omega)
    rw [hoverlong hge, hoverlong (hcount ▸ hge)]

section SameReception

variable {s t : State} (h : SameReception s t)
include h

theorem quiet_sameReception : SameReception s.quiet t.quiet :=
  ⟨h.session, h.ackSrcPort, h.ackDstPort, h.rxcnt, h.view, h.tracks, h.tracks'⟩

theorem putAnswer_sameReception (r : FsmOut) : SameReception (s.putAnswer r) (t.putAnswer r) :=
  ⟨h.session, h.ackSrcPort, h.ackDstPort, h.rxcnt, h.view, h.tracks, h.tracks'⟩

/-- RST samples the same configuration inputs, and nothing has been received after it (R186). -/
theorem restart_sameReception : SameReception s.restart t.restart :=
  sameReception_of_betweenDatagrams ⟨rfl, rfl⟩ ⟨rfl, rfl⟩ ⟨rfl, rfl, rfl, h.ackSrcPort, h.ackDstPort⟩ h.ackSrcPort
    h.ackDstPort

theorem receiveByte_sameReception (b : Byte) : SameReception (receiveByte s b) (receiveByte t b) where
  session := (receiveByte_sameSession s b).congr (receiveByte_sameSession t b) h.session
  ackSrcPort := by
    obtain ⟨-, -, hs, -⟩ := (Reaction.byte (s := s) b).ports
    obtain ⟨-, -, ht, -⟩ := (Reaction.byte (s := t) b).ports
    rw [hs, ht, h.ackSrcPort]
  ackDstPort := by
    obtain ⟨-, -, -, hs⟩ := (Reaction.byte (s := s) b).ports
    obtain ⟨-, -, -, ht⟩ := (Reaction.byte (s := t) b).ports
    rw [hs, ht, h.ackDstPort]
  rxcnt := by
    apply BitVec.eq_of_toNat_eq
    rw [receiveByte_rxcnt, receiveByte_rxcnt, h.rxcnt]
  view := rxView_receiveByte_congr h.rxcnt h.view b
  tracks := receiveByte_crcTracks s b h.tracks
  tracks' := receiveByte_crcTracks t b h.tracks'

theorem receiveBytes_sameReception (d : List Byte) :
    SameReception (d.foldl receiveByte s) (d.foldl receiveByte t) := by
  induction d generalizing s t with
  | nil => exact h
  | cons b d ih => exact ih (receiveByte_sameReception h b)

/-- RXE is `process` on the same view in the same session (R189). -/
theorem endDatagram_sameReception :
    (endDatagram t).out = (endDatagram s).out ∧ SameReception (endDatagram s) (endDatagram t) := by
  obtain ⟨hout, hsession⟩ := process_congr isoHdlc h.session (congrArg decodeView h.view)
  obtain ⟨hrxcnt, hcrc, -, -, -, -, -, hsrcPort, hdstPort, -⟩ := endDatagram_frame s
  obtain ⟨hrxcnt', hcrc', -, -, -, -, -, hsrcPort', hdstPort', -⟩ := endDatagram_frame t
  have hs := endDatagram_eq_process h.tracks
  have ht := endDatagram_eq_process h.tracks'
  refine ⟨?out, sameReception_of_betweenDatagrams ⟨hrxcnt, hcrc⟩ ⟨hrxcnt', hcrc'⟩ ?session ?src ?dst⟩
  case out => rw [hs, ht]; exact hout
  case session => rw [hs, ht]; exact hsession
  case src => rw [hsrcPort', hsrcPort, h.ackSrcPort]
  case dst => rw [hdstPort', hdstPort, h.ackDstPort]

/-- The FSM reads the same event (R164). -/
theorem receivedEvent_congr : receivedEvent t = receivedEvent s := by
  obtain ⟨hout, -⟩ := endDatagram_sameReception h
  obtain ⟨st, hst, hev, -⟩ := endDatagram_out s
  rw [← hev]
  exact receivedEvent_of_status (hout ▸ hst)

theorem emittedAckBit_congr : emittedAckBit t = emittedAckBit s := by
  obtain ⟨hst, hlav, hlab, -, -⟩ := h.session
  refine Option.ext fun b => ?_
  rw [emittedAckBit_eq_some_iff, emittedAckBit_eq_some_iff, receivedEvent_congr h, hst, hlav, hlab]

theorem ackStep_sameReception (b : Bit) :
    (ackStep b t).out = (ackStep b s).out ∧ SameReception (ackStep b s) (ackStep b t) := by
  unfold ackStep
  rw [emittedAckBit_congr h]
  split
  · exact endDatagram_sameReception h
  · exact ⟨rfl, quiet_sameReception h⟩

theorem fsmStep_sameReception (st : FsmState) (ev : Event) :
    (fsmStep st ev t).out = (fsmStep st ev s).out ∧ SameReception (fsmStep st ev s) (fsmStep st ev t) := by
  obtain ⟨hst, -⟩ := h.session
  unfold fsmStep
  rw [hst, receivedEvent_congr h]
  split
  · exact endDatagram_sameReception h
  · exact ⟨rfl, putAnswer_sameReception (quiet_sameReception h) _⟩

/-- Every operation gives the same outputs and keeps the relation. -/
theorem exec_sameReception (i : Instr) :
    ∃ u v, exec i s = .next u ∧ exec i t = .next v ∧ v.out = u.out ∧ SameReception u v := by
  cases i with
  | rst => exact ⟨_, _, rfl, rfl, rfl, restart_sameReception h⟩
  | nop | cmdRsvd => exact ⟨_, _, rfl, rfl, rfl, quiet_sameReception h⟩
  | rxb b => exact ⟨_, _, rfl, rfl, rfl, receiveByte_sameReception h b⟩
  | rxe => exact ⟨_, _, rfl, rfl, endDatagram_sameReception h⟩
  | data0 | data1 => exact ⟨_, _, rfl, rfl, endDatagram_sameReception (receiveBytes_sameReception h _)⟩
  | ack0 | ack1 => exact ⟨_, _, rfl, rfl, ackStep_sameReception h _⟩
  | fsmZAllFine | fsmOAllFine | fsmZIsCorrupt | fsmOIsCorrupt | fsmZWrongAlt | fsmOWrongAlt =>
    exact ⟨_, _, rfl, rfl, fsmStep_sameReception h _ _⟩

theorem runExec_sameReception (ops : List Instr) :
    ∃ u v outs, runExec ops s = .next (u, outs) ∧ runExec ops t = .next (v, outs) ∧ SameReception u v := by
  induction ops generalizing s t with
  | nil => exact ⟨s, t, [], rfl, rfl, h⟩
  | cons i ops ih =>
    obtain ⟨u, v, hu, hv, hout, huv⟩ := exec_sameReception h i
    obtain ⟨u', v', outs, hu', hv', huv'⟩ := ih huv
    exact ⟨u', v', u.out :: outs, by simp only [runExec, hu, hu'], by simp only [runExec, hv, hv', hout], huv'⟩

end SameReception

/-- Settles O37: two blocks between datagrams have received the same, which is nothing, and every operation keeps that. -/
theorem oldScratchInfluencesNoOutput : Obligations.OldScratchInfluencesNoOutput := by
  intro s s' ops hs hs' hsession hsrc hdst
  obtain ⟨t, t', outs, ht, ht', hsame⟩ :=
    runExec_sameReception (sameReception_of_betweenDatagrams hs hs' hsession hsrc hdst) ops
  exact ⟨t, t', outs, ht, ht', hsame.session⟩

/-! ## RST, NOP and RXB (R186 to R188) -/

/-- RXE never takes LAV back: a delivery sets it, the three other cases keep it (R176 to R178). -/
theorem endDatagram_lav {s : State} (h : s.lav = true) : (endDatagram s).lav = true := by
  rcases endDatagram_cases s with ⟨c, -, -, he⟩ | ⟨r, -, -, -, he⟩ | ⟨r, -, -, -, -, he⟩ | ⟨r, -, -, -, -, he⟩ <;>
    rw [he] <;> exact h

theorem Reaction.lav {s t : State} (hr : Reaction s t) (h : s.lav = true) : t.lav = true := by
  cases hr with
  | quiet | answer => exact h
  | byte b =>
    obtain ⟨-, hlav, -⟩ := receiveByte_frame s b
    rw [hlav, h]
  | ended => exact endDatagram_lav h
  | datagram d =>
    obtain ⟨-, hlav, -⟩ := receiveBytes_frame s d
    exact endDatagram_lav (hlav.trans h)

/-- Settles O17: the values are those `State.restart` writes, and a reaction keeps LAV. -/
theorem resetBeginsASession : Obligations.ResetBeginsASession := by
  refine ⟨fun s t i h hi hlav => ?lav, fun s cmd data => ?restart⟩
  case lav =>
    rcases exec_cases h with ⟨cmd, data, rfl, -⟩ | hr
    · exact absurd rfl (hi cmd data)
    · exact hr.lav hlav
  case restart =>
    exact ⟨s.restart, rfl, rfl, rfl, rfl, rfl, rfl, rfl, rfl, rfl, rfl, rfl, rfl,
      s.restart.restart, rfl, ⟨rfl, rfl, rfl, rfl, rfl⟩, rfl, rfl, rfl⟩

/-- The outputs of the step before have no effect on a whole datagram (R187). -/
theorem receiveDatagram_quiet (d : List Byte) (s : State) : receiveDatagram d s.quiet = receiveDatagram d s := by
  cases d with
  | nil => exact endDatagram_quiet s
  | cons b d => rw [receiveDatagram_cons, receiveDatagram_cons, receiveByte_quiet]

theorem ackStep_quiet (b : Bit) (s : State) : ackStep b s.quiet = ackStep b s := by
  have hbit : emittedAckBit s.quiet = emittedAckBit s := rfl
  rw [ackStep, ackStep, hbit, endDatagram_quiet]; rfl

theorem fsmStep_quiet (st : FsmState) (ev : Event) (s : State) : fsmStep st ev s.quiet = fsmStep st ev s := by
  have hev : receivedEvent s.quiet = receivedEvent s := rfl
  rw [fsmStep, fsmStep, hev, endDatagram_quiet]; rfl

/-- No operation reads the outputs of the step before (R187). -/
theorem exec_quiet (i : Instr) (s : State) : exec i s.quiet = exec i s := by
  cases i with
  | rst | nop | cmdRsvd => rfl
  | rxb b => exact congrArg Host.Outcome.next (receiveByte_quiet s b)
  | rxe => exact congrArg Host.Outcome.next (endDatagram_quiet s)
  | data0 | data1 => exact congrArg Host.Outcome.next (receiveDatagram_quiet _ s)
  | ack0 | ack1 => exact congrArg Host.Outcome.next (ackStep_quiet _ s)
  | fsmZAllFine | fsmOAllFine | fsmZIsCorrupt | fsmOIsCorrupt | fsmZWrongAlt | fsmOWrongAlt =>
    exact congrArg Host.Outcome.next (fsmStep_quiet _ _ s)

/-- Settles O18, by `exec_quiet`. -/
theorem nopChangesNothing : Obligations.NopChangesNothing := fun s _ => ⟨s.quiet, rfl, rfl, fun i => exec_quiet i s⟩

/-- HDR after a byte: the cell of its offset holds it, every other cell is as before (R22, R120). -/
theorem receiveByte_hdr_getElem (s : State) (b : Byte) (i : Fin 8) :
    (receiveByte s b).hdr[i] = if s.rxcnt.toNat = i then b else s.hdr[i] := by
  rcases Nat.lt_or_ge s.rxcnt.toNat 8 with h8 | h8
  · rw [receiveByte_hdr s b ⟨_, h8⟩ rfl]
    simp [Vector.getElem_set]
  have hkept : (receiveByte s b).hdr = s.hdr := by
    rw [receiveByte, route, dif_neg (Nat.not_lt.2 h8)]
    split_ifs <;> rfl
  rw [hkept, if_neg (by omega)]

/-- CSUM likewise (R24, R120). -/
theorem receiveByte_csum_getElem (s : State) (b : Byte) (i : Fin 4) :
    (receiveByte s b).csum[i] = if s.rxcnt.toNat = i + 8 then b else s.csum[i] := by
  by_cases hin : 8 ≤ s.rxcnt.toNat ∧ s.rxcnt.toNat < 12
  · obtain ⟨j, hj⟩ : ∃ j : Fin 4, s.rxcnt.toNat = j + 8 := ⟨⟨s.rxcnt.toNat - 8, by omega⟩, by simp only; omega⟩
    rw [receiveByte_csum s b j hj, hj]
    simp [Vector.getElem_set]
  have hkept : (receiveByte s b).csum = s.csum := by
    rw [receiveByte, route]
    split_ifs
    · rfl
    · omega
    · rfl
    · rfl
  rw [hkept, if_neg (by omega)]

/-- Settles O19: each register and PBUF cell after a byte, then its frame. -/
theorem rxbStoresByCounter : Obligations.RxbStoresByCounter := by
  intro s b k
  obtain ⟨hst, hlav, hlab, hsrc, hdst, hsrcPort, hdstPort, hinputs, hresets, hout, hfsmOut⟩ := receiveByte_frame s b
  refine ⟨receiveByte s b, rfl, receiveByte_hdr_getElem s b, receiveByte_csum_getElem s b, fun a => ?pbuf, ?crc,
    receiveByte_rxcnt s b, hout, hfsmOut, ⟨hst, hlav, hlab, hsrc, hdst⟩, hsrcPort, hdstPort, hinputs, hresets⟩
  case pbuf =>
    rw [readPbuf_receiveByte]
    congr 1
    simp only [eq_iff_iff]
    omega
  case crc =>
    rw [receiveByte_crc]
    congr 1
    simp only [eq_iff_iff]
    omega

/-- Settles O23: RXE and RST write the counter, NOP does not. -/
theorem counterReturnsToZero : Obligations.CounterReturnsToZero := by
  refine fun s t cmd data => ⟨fun h => ?rxe, fun h => ?rst, fun h => ?nop⟩ <;> cases h
  case rxe =>
    obtain ⟨hrxcnt, -⟩ := endDatagram_frame s
    exact hrxcnt
  all_goals rfl

/-! ## The shape of the outputs (R194) -/

/-- Settles O24: RST, NOP and RXB write the empty record, and each of the four cases of RXE has the shape stated. -/
theorem outputShape : Obligations.OutputShape := by
  refine ⟨fun s t i hi h => ?silent, fun s t data h => ?rxe⟩
  case silent =>
    rcases hi with ⟨cmd, data, rfl⟩ | ⟨data, rfl⟩ | ⟨b, rfl⟩ <;> cases h <;> rfl
  case rxe =>
    cases h
    rcases endDatagram_cases s with ⟨c, -, -, he⟩ | ⟨r, -, -, -, he⟩ | ⟨r, -, -, -, -, he⟩ | ⟨r, -, -, -, -, he⟩ <;>
      rw [he] <;> refine ⟨_, rfl, ?_⟩
    case inl | inr.inl | inr.inr.inr => simp
    case inr.inr.inl => cases s.lav <;> simp

/-! ## Valid datagrams (R191, R192) -/

/-- A valid datagram of the awaited bit is delivered and acknowledged, and the state flips (R152, R153). -/
theorem process_of_awaited_bit {cfg : Config.Cfg} {rx : RxView} {s : State} {r : Fields} (hd : decodeView rx = .ok r)
    (hok : batchChecksumOk cfg r = true) (hseq : r.seq = expectedBit s.state) :
    process cfg rx s = { s with
      state := flipState s.state, lav := true, lab := expectedBit s.state,
      out := ⟨some (sessionAck cfg s (expectedBit s.state)), some r.payload, some ⟨.allFine, .deliver, .noError, none⟩⟩,
      fsmOut := some ⟨.deliver, flipState s.state⟩ } := by
  rw [process]
  rcases processWith_cases s cfg (batchChecksumOk cfg) rx with ⟨c, hd', -⟩ | ⟨r', hd', hok', -⟩ | ⟨r', hd', -, hseq', -⟩ |
    ⟨r', hd', -, -, he⟩ <;> cases hd.symm.trans hd'
  · cases hok.symm.trans hok'
  · exact absurd hseq hseq'
  · exact he

section ValidDatagram

variable {s : State} {src dst : BitVec 16} {b : Bit} {flag : Byte} {len : BitVec 16} {csum : BitVec 32} {p : List Byte}
  (hbetween : BetweenDatagrams s) (hlen : p.length = len.toNat)
  (hcsum : csum = computeChecksum isoHdlc (bytesBe16 src ++ bytesBe16 dst ++ [bitByte b, flag] ++ bytesBe16 len) p)

include hlen hcsum in
/-- A datagram of a sequence bit, with its length declared and its checksum claimed, decodes and passes the checksum test. -/
theorem decodeView_valid :
    ∃ r, decodeView (.bytes (dataPrefix src dst (bitByte b) flag len csum ++ p)) = .ok r ∧
      batchChecksumOk isoHdlc r = true ∧ r.seq = b ∧ r.payload = p := by
  have hseq : ¬ 1 < (bitByte b).toNat := by cases b <;> decide
  rw [decodeView, decodeFields_prefix, if_neg (not_not.2 hlen), if_neg hseq]
  exact ⟨_, rfl, decide_eq_true hcsum.symm, getLsbD_bitByte b, rfl⟩

include hbetween hlen hcsum

theorem receiveDatagram_valid_awaited (hb : expectedBit s.state = b) :
    let t := receiveDatagram (dataPrefix src dst (bitByte b) flag len csum ++ p) s
    t.out = ⟨some (sessionAck isoHdlc s b), some p, some ⟨.allFine, .deliver, .noError, none⟩⟩ ∧
      t.state = flipState s.state ∧ t.lav = true ∧ t.lab = b := by
  obtain ⟨r, hd, hok, hseq, hpayload⟩ := decodeView_valid hlen hcsum
  obtain ⟨hout, ⟨hst, hlav, hlab, -⟩, -⟩ :=
    receiveDatagram_eq_process hbetween (dataPrefix src dst (bitByte b) flag len csum ++ p)
  rw [process_of_awaited_bit hd hok (hseq.trans hb.symm), hpayload, hb] at hout hst hlav hlab
  exact ⟨hout, hst, hlav, hlab⟩

theorem receiveDatagram_valid_other (hb : expectedBit s.state ≠ b) :
    let t := receiveDatagram (dataPrefix src dst (bitByte b) flag len csum ++ p) s
    t.out = ⟨if s.lav then some (sessionAck isoHdlc s s.lab) else none, none,
        some ⟨.wrongAlternating, .resend, .sequenceMismatch, none⟩⟩ ∧ SameSession s t := by
  obtain ⟨r, hd, hok, hseq, -⟩ := decodeView_valid hlen hcsum
  obtain ⟨hout, hsession, -⟩ :=
    receiveDatagram_eq_process hbetween (dataPrefix src dst (bitByte b) flag len csum ++ p)
  rw [process_of_other_bit hd hok (hseq ▸ hb.symm)] at hout hsession
  exact ⟨hout, hsession⟩

end ValidDatagram

/-- Settles O30: bit 0 is awaited in WaitForZero; a legal session in WaitForOne has acknowledged bit 0 last (R32). -/
theorem data0Outcome : Obligations.Data0Outcome := by
  intro s src dst flag len csum p hbetween ⟨hfresh, hlast⟩ hlen hcsum
  refine ⟨_, rfl, fun hst => ?awaited, fun hst => ?other⟩
  case awaited =>
    have h := receiveDatagram_valid_awaited (b := false) hbetween hlen hcsum (by rw [hst]; rfl)
    rwa [hst] at h
  case other =>
    have hlav : s.lav = true := by
      cases hlav : s.lav with
      | true => rfl
      | false => cases hst.symm.trans (hfresh hlav).1
    have hlab : s.lab = false := by rw [hlast hlav, hst]; rfl
    obtain ⟨hout, hsession⟩ := receiveDatagram_valid_other (b := false) hbetween hlen hcsum (by rw [hst]; decide)
    rw [hlav, hlab] at hout
    exact ⟨hout, hsession, hlav, hlab⟩

/-- Settles O31: bit 1 is awaited in WaitForOne; in WaitForZero a legal session has acknowledged bit 1 last, or nothing (R32). -/
theorem data1Outcome : Obligations.Data1Outcome := by
  intro s src dst flag len csum p hbetween ⟨_, hlast⟩ hlen hcsum
  refine ⟨_, rfl, fun hst => ?awaited, fun hst => ?other⟩
  case awaited =>
    have h := receiveDatagram_valid_awaited (b := true) hbetween hlen hcsum (by rw [hst]; rfl)
    rwa [hst] at h
  case other =>
    have hlab (hlav : s.lav = true) : s.lab = true := by rw [hlast hlav, hst]; rfl
    obtain ⟨hout, hsession⟩ := receiveDatagram_valid_other (b := true) hbetween hlen hcsum (by rw [hst]; decide)
    refine ⟨hout.trans ?_, hsession, hlab⟩
    cases hlav : s.lav with
    | true => rw [hlab hlav]
    | false => rfl

end Sys2Proof.Machine

/-! # Errors, totality and the environment's counters (60_exceptions.md) -/

namespace Sys2Proof.Machine

/-! ## The order of the errors (R218) -/

/-- Settles O13: the verdict's tests stand in the spec's order (`classify_bytes`), and each names its own error and cause. -/
theorem firstErrorInOrderIsReported : Obligations.FirstErrorInOrderIsReported := by
  intro cfg d e
  rw [classify_bytes]
  split_ifs <;> exact ⟨rfl, rfl⟩

/-! ## The counters of the environment (R230) -/

/-- Every datagram has one status, which reports AllFine exactly where a unit is delivered (R158, R163). -/
theorem process_status (cfg : Config.Cfg) (rx : RxView) (s : State) :
    ∃ st, (process cfg rx s).out.status = some st ∧
      (st.event = .allFine ↔ (process cfg rx s).out.deliver.isSome = true) := by
  rcases process_delivers_or_keeps cfg rx s with ⟨hnone, -, st, hst, hev⟩ | ⟨r, -, -, -, he⟩
  · exact ⟨st, hst, by simp [hev, hnone]⟩
  · rw [he]
    exact ⟨_, rfl, by simp⟩

/-- The good counter counts a datagram reported AllFine. -/
theorem countGood_cons {o : Out} {st : Status} (h : o.status = some st) (outs : List Out) :
    countGood (o :: outs) = if st.event = .allFine then countGood outs + 1 else countGood outs := by
  by_cases hev : st.event = .allFine <;> simp [countGood, h, hev]

/-- The bad counter counts a datagram reported as anything else. -/
theorem countBad_cons {o : Out} {st : Status} (h : o.status = some st) (outs : List Out) :
    countBad (o :: outs) = if st.event = .allFine then countBad outs else countBad outs + 1 := by
  by_cases hev : st.event = .allFine <;> simp [countBad, h, hev]

/-- Settles O60, by induction on the datagrams: a delivered one counts as good and as a delivery, any other as bad alone. -/
theorem everyDatagramIsCountedOnce : Obligations.EveryDatagramIsCountedOnce := by
  intro cfg rxs s
  induction rxs generalizing s with
  | nil => exact ⟨rfl, rfl⟩
  | cons rx rxs ih =>
    obtain ⟨hall, hgood⟩ := ih (process cfg rx s)
    obtain ⟨st, hst, hdelivers⟩ := process_status cfg rx s
    simp only [runDatagrams_cons, countGood_cons hst, countBad_cons hst, deliveries_cons, ← hdelivers, List.length_cons]
    split <;> omega

/-! ## Totality (R185, R223) -/

/-- Settles O55: each of the fifteen meanings is the next state it computes. -/
theorem everyOperationCompletes : Obligations.EveryOperationCompletes := by
  intro i s
  cases i <;> exact ⟨_, rfl⟩

/-- What the decoder rejects is answered with a next state too, in each of the four formats (logs 13, 17, 18). -/
theorem reject_completes (e : Enc) (s : State) : ∃ t, reject e s = .next t := by
  cases e <;> exact ⟨_, rfl⟩

/-- Settles O56: an idle and a configuration step answer by definition, what is decoded by `everyOperationCompletes`, and what is
rejected by `reject_completes`. -/
theorem everyStepCompletes : Obligations.EveryStepCompletes := by
  intro s
  rcases step_cases (s := s) with ⟨-, he⟩ | ⟨src, dst, -, -, he⟩ | ⟨e, i, -, -, he⟩ | ⟨e, c, -, -, he⟩ <;> rw [he]
  · exact ⟨_, rfl⟩
  · exact ⟨_, rfl⟩
  · exact everyOperationCompletes i (taken s)
  · exact reject_completes e (taken s)

end Sys2Proof.Machine

/-! # Steps that run no operation (70_reset_and_hazards.md) -/

namespace Sys2Proof.Machine

/-- Taking the head leaves the rest presented. -/
theorem taken_of_cons {s : State} {x : Input} {rest : List Input} (h : s.inputs = x :: rest) : taken s = s.putInputs rest := by
  rw [taken, h, List.tail_cons]

/-- An outbound word whose sequence byte exceeds 1 is neither ACK (R77). -/
theorem decodeAck_of_one_lt_seq {a : BitVec 72} (h : 1 < (a.extractLsb' 32 8).toNat) : decodeAck a = .error .notAnAck := by
  have h0 : a.extractLsb' 32 8 ≠ 0 := fun h0 => by simp [h0] at h
  have h1 : a.extractLsb' 32 8 ≠ 1 := fun h1 => by simp [h1] at h
  rw [← ackWord_of_fields a, decodeAck_ackWord, if_neg h0, if_neg h1]

/-- With nothing presented the step is the idle one (log 7). -/
theorem step_of_nil {s : State} (h : s.inputs = []) : step s = .next s.quiet := by
  simp only [step, fetch, h, idleStep]

/-- A configuration change drives the two inputs and nothing else (R250; log 8). -/
theorem step_config {s : State} {src dst : BitVec 16} {rest : List Input} (h : s.inputs = .config src dst :: rest) :
    step s = .next ((s.putInputs rest).putPorts src dst).quiet := by
  simp only [step, fetch, h, configStep, taken_of_cons h]

/-- A word that is neither ACK is taken, and nothing else happens (R223; log 18). -/
theorem step_ackWord_of_one_lt_seq {s : State} {a : BitVec 72} {rest : List Input} (h : s.inputs = .ackWord a :: rest)
    (ha : 1 < (a.extractLsb' 32 8).toNat) : step s = .next (s.putInputs rest).quiet := by
  simp only [step, fetch, h, decode, decodeAck_of_one_lt_seq ha, reject, taken_of_cons h]

/-- Settles O53: each of the three steps is a few updates of the state, and these write no other field. -/
theorem idleAndConfigurationSteps : Obligations.IdleAndConfigurationSteps :=
  fun _ => ⟨step_of_nil, fun _ _ _ => step_config, fun _ _ => step_ackWord_of_one_lt_seq⟩

end Sys2Proof.Machine

/-! # Placed words, rejected datagrams and the FSM-IN words (30_encoding.md, 40_crc.md, 42_fsm.md, 44_port_operations.md) -/

namespace Sys2Proof.Machine

/-! ## A thing placed at the inputs (logs 6 and 20) -/

/-- The state bit and the event code make up the FSM-IN word (R89). -/
theorem fsmWord_of_fields (f : BitVec 3) : fsmWord (stateOfBit (f.getLsbD 2)) (f.extractLsb' 0 2) = f := by
  revert f; decide

/-- Placing a received datagram leaves STATE where the session was placed. -/
theorem placeReceived_state (s : State) (expected : Bit) (d : List Byte) :
    (placeReceived s expected d).state = stateOfBit expected := by
  obtain ⟨hstate, -⟩ := receiveBytes_frame (((s.putSession (stateOfBit expected) expected).putRxcnt 0).putCrc crcInit) d
  rw [placeReceived, hstate]; rfl

/-- What is placed is what the next step fetches. -/
theorem fetch_placeEnc (s : State) (e : Enc) : fetch (placeEnc s e) = .word e := by
  cases e with
  | cmd | data | ack => rfl
  | fsm f =>
    simp only [fetch, placeEnc, State.putInputs_inputs, State.putInputs_state, placeReceived_state, fsmWord_of_fields]

/-- A table word that decodes is the word of one thing presented, which decodes to the same instruction. -/
theorem decodeTableWord_eq_some {nbits w : Nat} {i : Instr} (h : decodeTableWord nbits w = some i) :
    ∃ e, tableEnc nbits w = some e ∧ decode e = .ok i := by
  obtain ⟨e, he, hd⟩ := Option.bind_eq_some_iff.1 h
  cases hdec : decode e with
  | ok j => rw [hdec] at hd; cases hd; exact ⟨e, he, hdec⟩
  | error c => rw [hdec] at hd; cases hd

/-- Settles O5: the step fetches what was placed (`fetch_placeEnc`) and runs what it decodes to. -/
theorem placedTableWordIsExecuted : Obligations.PlacedTableWordIsExecuted := by
  intro s nbits w i h
  obtain ⟨e, he, hd⟩ := decodeTableWord_eq_some h
  have hplaced : s.withFetchWord nbits w = placeEnc s e := by simp only [State.withFetchWord, placeWord, he]
  rw [hplaced]
  simp only [step, fetch_placeEnc, hd]

/-! ## A rejected datagram (R78, R92) -/

/-- The decoder's cause for an inbound string is that of the structural tests (R72, R78). -/
theorem decode_data_eq_malformed {d : List Byte} {c : MCause} (h : decode (.data d) = .error (.malformed c)) :
    decodeFields d = .error c := by
  simp only [decode, decodeData] at h
  split at h
  · cases h; assumption
  · split at h <;> cases h

/-- Settles O35: the step receives the datagram whole, and RXB of each byte and RXE lead to the same state. -/
theorem undecodableDatagramIsReceivedWhole : Obligations.UndecodableDatagramIsReceivedWhole := by
  intro s d c rest hi hd
  have hstep := step_datagram_of_error hi (decode_data_eq_malformed hd)
  obtain ⟨outs, hrun, -, -⟩ := runExec_presentedDatagram (bytesAndNops_map_rxb d) (s.putInputs rest) 0
  rw [presentedBytes_map_rxb] at hrun
  rw [taken_of_cons hi] at hstep
  exact ⟨_, _, hstep, hrun⟩

/-! ## Listed words and checksums -/

/-- Settles O4, word by word. -/
theorem specWordsDecode : Obligations.SpecWordsDecode := by
  unfold Obligations.SpecWordsDecode; decide

/-- Settles O9, value by value; the three longer strings are run through the register by the kernel. -/
theorem listedChecksumValues : Obligations.ListedChecksumValues :=
  ⟨by decide, by decide, by decide, by decide, by decide +kernel, by decide +kernel, by decide +kernel⟩

/-! ## CMD_RSVD (R193) -/

/-- Settles O22: both commands leave `State.quiet` of the state they find. -/
theorem reservedCommandActsAsNop : Obligations.ReservedCommandActsAsNop := fun _ _ _ => ⟨rfl, rfl⟩

/-! ## The FSM-IN words where the FSM reads them and elsewhere (R152 to R157; log 15) -/

/-- Where the FSM reads the word, it is the RXE step. -/
theorem fsmStep_of_read {s : State} {st : FsmState} {ev : Event} (hst : s.state = st) (hev : receivedEvent s = ev) :
    fsmStep st ev s = endDatagram s := if_pos ⟨hst, hev⟩

/-- Elsewhere the word shows `execute`'s answer and nothing else happens. -/
theorem fsmStep_of_not_read {s : State} {st : FsmState} {ev : Event} (h : ¬ (s.state = st ∧ receivedEvent s = ev)) :
    fsmStep st ev s = { s with out := Out.none, fsmOut := some (execute st ev) } := if_neg h

theorem fsmStep_allFine {s : State} {st : FsmState} (hst : s.state = st) (hev : receivedEvent s = .allFine) :
    ∃ r, decodeView (rxView s) = .ok r ∧
      fsmStep st .allFine s = { s with
        state := flipState st, lav := true, lab := expectedBit st, rxcnt := 0, crc := crcInit,
        fsmOut := some ⟨.deliver, flipState st⟩,
        out := ⟨some (buildAck isoHdlc s.cfgSrc s.cfgDst (expectedBit st)), some r.payload,
                some ⟨.allFine, .deliver, .noError, none⟩⟩ } := by
  subst hst
  obtain ⟨r, hd, -, he⟩ := endDatagram_of_allFine hev
  exact ⟨r, hd, (fsmStep_of_read rfl hev).trans he⟩

theorem fsmStep_isCorrupt {s : State} {st : FsmState} (hst : s.state = st) (hev : receivedEvent s = .isCorrupt) :
    ∃ report : Status, report.event = .isCorrupt ∧ report.action = .ignore ∧
      fsmStep st .isCorrupt s = { s with
        rxcnt := 0, crc := crcInit, fsmOut := some ⟨.ignore, st⟩, out := ⟨none, none, some report⟩ } := by
  subst hst
  obtain ⟨report, hevent, haction, he⟩ := endDatagram_of_isCorrupt hev
  exact ⟨report, hevent, haction, (fsmStep_of_read rfl hev).trans he⟩

theorem fsmStep_wrongAlternating {s : State} {st : FsmState} (hst : s.state = st)
    (hev : receivedEvent s = .wrongAlternating) :
    fsmStep st .wrongAlternating s = { s with
      rxcnt := 0, crc := crcInit, fsmOut := some ⟨.resend, st⟩,
      out := ⟨if s.lav then some (buildAck isoHdlc s.cfgSrc s.cfgDst s.lab) else none, none,
              some ⟨.wrongAlternating, .resend, .sequenceMismatch, none⟩⟩ } := by
  subst hst
  exact (fsmStep_of_read rfl hev).trans (endDatagram_of_wrongAlternating hev)

/-- Settles O39: `fsmStep_allFine` in each of the two states, and `fsmStep_of_not_read` elsewhere. -/
theorem allFineWordsDeliver : Obligations.AllFineWordsDeliver := by
  refine fun s => ⟨fun hst hev => ?_, fun hst hev => ?_, fun h => congrArg Host.Outcome.next (fsmStep_of_not_read h),
    fun h => congrArg Host.Outcome.next (fsmStep_of_not_read h)⟩
  all_goals
    obtain ⟨r, hd, he⟩ := fsmStep_allFine hst hev
    exact ⟨r, hd, congrArg Host.Outcome.next he⟩

/-- Settles O40: `fsmStep_isCorrupt` in each of the two states, and `fsmStep_of_not_read` elsewhere. -/
theorem isCorruptWordsDoNothing : Obligations.IsCorruptWordsDoNothing := by
  refine fun s => ⟨fun hst hev => ?_, fun hst hev => ?_, fun h => congrArg Host.Outcome.next (fsmStep_of_not_read h),
    fun h => congrArg Host.Outcome.next (fsmStep_of_not_read h)⟩
  all_goals
    obtain ⟨report, hevent, haction, he⟩ := fsmStep_isCorrupt hst hev
    exact ⟨report, hevent, haction, congrArg Host.Outcome.next he⟩

/-- Settles O41: `fsmStep_wrongAlternating` in each of the two states, and `fsmStep_of_not_read` elsewhere. -/
theorem wrongAlternatingWordsResend : Obligations.WrongAlternatingWordsResend := fun _ =>
  ⟨fun hst hev => congrArg Host.Outcome.next (fsmStep_wrongAlternating hst hev),
    fun hst hev => congrArg Host.Outcome.next (fsmStep_wrongAlternating hst hev),
    fun h => congrArg Host.Outcome.next (fsmStep_of_not_read h),
    fun h => congrArg Host.Outcome.next (fsmStep_of_not_read h)⟩

/-! ## The event code that cannot occur (R165; log 17) -/

theorem decodeFsm_reservedEvent (st : FsmState) : decodeFsm (fsmWord st 3) = .error .reservedEvent := by
  cases st <;> decide

/-- Settles O42: the word is rejected in either state, and the answer shown is `execute`'s to IsCorrupt. -/
theorem reservedEventActsAsIsCorrupt : Obligations.ReservedEventActsAsIsCorrupt := by
  intro s rest hi
  have hstep : step s = .next ((s.putInputs rest).quiet.putAnswer (execute s.state .isCorrupt)) := by
    simp only [step, fetch, hi, decode, decodeFsm_reservedEvent, reject, taken_of_cons hi, State.putInputs_state]
  rw [execute_eq] at hstep
  exact hstep

end Sys2Proof.Machine
